-- ==== Sys2Proof/Word.lean ====
section
/-! DEFINITION. The word types of the block: the request word and one wire. -/

namespace Sys2Proof

/-- A request word `req_value[63:0]` (R7 `SRC_W`, R50). -/
abbrev Word := BitVec 64

/-- One bit, as the sign bit of a Representation (R10 `sign_r`). -/
abbrev Bit := BitVec 1

end Sys2Proof
end

