-- ==== Sys2Proof/Config.lean ====
section
/-! DEFINITION. What an instance of the block fixes when it is built (the parameter records of R3 and R150) and the
free values the spec leaves open (LATENCY, the data outputs outside DONE). -/

namespace Sys2Proof

/-- The Layout parameter record of R3, field by field. `bias` and `totalBits` count only when their `Explicit` flag is
set. -/
structure Layout where
  expBits       : Nat
  manBits       : Nat
  biasExplicit  : Bool
  bias          : Int
  totalExplicit : Bool
  totalBits     : Nat
deriving DecidableEq, Repr

/-- A parameter record as an integrator may write it down, before any check: the widths are integers here, so that
every cause of R150 (code 2 among them) can be written. -/
structure RawLayout where
  expBits       : Int
  manBits       : Int
  biasExplicit  : Bool
  bias          : Int
  totalExplicit : Bool
  totalBits     : Int
deriving DecidableEq, Repr

/-- The reasons of `InvalidLayout` (R150). -/
inductive LayoutError where
  /-- Code 1, `EXP_BITS_TOO_SMALL`. -/
  | expBitsTooSmall
  /-- Code 2, `MAN_BITS_NEGATIVE`. -/
  | manBitsNegative
  /-- Code 3, `TOTAL_BITS_TOO_SMALL`. -/
  | totalBitsTooSmall
deriving DecidableEq, Repr

/-- The data output ports of R31, as names for the free values they show outside DONE. -/
inductive DataPort where
  | sign | exponent | mantissa | bits | word | hex | value
deriving DecidableEq, Repr

/-- FREE VALUE (log entry 5). One draw of `LATENCY - 1` at the acceptance at edge number `edge` of a word by an
instance with this Layout (R7, R13, R180). No body: any natural. -/
opaque Config.latencyDraw (edge : Nat) (L : Layout) (w : Word) : Nat

/-- FREE VALUE (log entry 6). What a data output shows while the phase is not DONE (R34, U20): `edge` is the number of the
cycle, `held` the stale contents of the registers, `n` the port's width. No body: any bits. -/
opaque Config.freeOutput (p : DataPort) (edge : Nat) (held : List Nat) (n : Nat) : BitVec n

end Sys2Proof
end

