-- ==== Sys2Proof/Machine/Layout.lean ====
section
/-! DEFINITION. The derived constants of a Layout (R4), its validity (R5), the presets (R6), `NAN_MANTISSA` (R7), and the checks of
`InvalidLayout` (R150). -/

namespace Sys2Proof

/-! ### Derived constants (R4) -/

/-- `bias`: the explicit one, else `2^(E-1) - 1`. -/
def Layout.effBias (L : Layout) : Int :=
  if L.biasExplicit then L.bias else 2 ^ (L.expBits - 1) - 1

/-- `W = 1 + E + M`, the length of the canonical bit string. -/
abbrev Layout.W (L : Layout) : Nat := 1 + L.expBits + L.manBits

/-- `T`, the width of the container word. -/
abbrev Layout.T (L : Layout) : Nat := if L.totalExplicit then L.totalBits else L.W

/-- `H = 4 * ceil(W / 4)`, the length of the hexadecimal view in bits. -/
abbrev Layout.H (L : Layout) : Nat := 4 * ((L.W + 3) / 4)

/-- `EMAX = 2^E - 1`, the exponent field with every bit set. -/
def Layout.emax (L : Layout) : Nat := 2 ^ L.expBits - 1

/-- R5: the Layout is valid. -/
abbrev Layout.Valid (L : Layout) : Prop :=
  1 ≤ L.expBits ∧ (L.totalExplicit = true → 1 + L.expBits + L.manBits ≤ L.totalBits)

/-! ### The presets (R6, R62) -/

/-- A preset triple `(total_bits, exponent_bits, mantissa_bits)`, bias defaulted (R6). -/
def Layout.preset (total e m : Nat) : Layout :=
  { expBits := e, manBits := m, biasExplicit := false, bias := 0, totalExplicit := true, totalBits := total }

def Layout.half : Layout := Layout.preset 16 5 10
def Layout.single : Layout := Layout.preset 32 8 23
def Layout.double : Layout := Layout.preset 64 11 52
def Layout.quadruple : Layout := Layout.preset 128 15 112
def Layout.octuple : Layout := Layout.preset 256 19 236

/-- The record `{exponent_bits=E, mantissa_bits=M}` of R60, everything else defaulted. -/
def Layout.custom (e m : Nat) : Layout :=
  { expBits := e, manBits := m, biasExplicit := false, bias := 0, totalExplicit := false, totalBits := 0 }

/-! ### `NAN_MANTISSA` (R7) -/

/-- The default of `NAN_MANTISSA`: only the leftmost mantissa bit set, `2^(M-1)`; the empty field when `M = 0`. -/
def Layout.defaultNan (L : Layout) : BitVec L.manBits := BitVec.ofNat L.manBits (2 ^ (L.manBits - 1))

/-- R7's constraint on `NAN_MANTISSA`: nonzero when `M >= 1`. -/
abbrev Layout.NanAllowed (L : Layout) (nan : BitVec L.manBits) : Prop :=
  L.manBits = 0 ∨ nan ≠ 0#L.manBits

/-- The default meets the constraint. -/
theorem Layout.defaultNan_allowed (L : Layout) : L.NanAllowed L.defaultNan := by
  rcases Nat.eq_zero_or_pos L.manBits with h | h
  · exact .inl h
  · refine .inr fun h0 => ?_
    have h1 := congrArg BitVec.toNat h0
    have h2 : 2 ^ (L.manBits - 1) < 2 ^ L.manBits := Nat.pow_lt_pow_right (by omega) (by omega)
    simp only [Layout.defaultNan, BitVec.toNat_ofNat, Nat.mod_eq_of_lt h2] at h1
    exact absurd h1 (by simp)

/-- The three fields of a Representation in a Layout (R130): widths 1, `E`, `M`. -/
structure Fields (L : Layout) where
  sign : Bit
  exp  : BitVec L.expBits
  man  : BitVec L.manBits
deriving DecidableEq, Repr

/-! ### The checks of elaboration (R150) -/

/-- The code of a reason (R150). -/
def LayoutError.code : LayoutError → Nat
  | .expBitsTooSmall => 1
  | .manBitsNegative => 2
  | .totalBitsTooSmall => 3

/-- The reason a parameter record is refused, the lowest code first (R150, R151); none for a valid record. -/
def RawLayout.failure (r : RawLayout) : Option LayoutError :=
  if r.expBits < 1 then some .expBitsTooSmall
  else if r.manBits < 0 then some .manBitsNegative
  else if r.totalExplicit = true ∧ r.totalBits < 1 + r.expBits + r.manBits then some .totalBitsTooSmall
  else none

/-- The record of R3, its widths as naturals. -/
def RawLayout.toLayout (r : RawLayout) : Layout :=
  { expBits := r.expBits.toNat, manBits := r.manBits.toNat, biasExplicit := r.biasExplicit, bias := r.bias,
    totalExplicit := r.totalExplicit, totalBits := r.totalBits.toNat }

/-- A record that no check refuses is a valid Layout. -/
theorem RawLayout.toLayout_valid (r : RawLayout) (h : r.failure = none) : r.toLayout.Valid := by
  unfold RawLayout.failure at h
  split at h <;> try contradiction
  split at h <;> try contradiction
  split at h <;> try contradiction
  rename_i h1 h2 h3
  refine ⟨by simp only [RawLayout.toLayout]; omega, fun ht => ?_⟩
  have ht' : r.totalExplicit = true := ht
  have h4 : ¬ r.totalBits < 1 + r.expBits + r.manBits := fun hlt => h3 ⟨ht', hlt⟩
  simp only [RawLayout.toLayout]
  omega

end Sys2Proof
end

