-- ==== Sys2Proof/Machine/Flags.lean ====
section
/-! DEFINITION. The block has no flag (R11, R152): overflow, underflow, flush and truncation are silent. What a flag would
be computed from is the range test of `biased_exponent_assembler` (R110 to R112), which only selects a case. -/

namespace Sys2Proof.Machine

/-- The range of a biased exponent (R111). -/
inductive ExpRange where
  | subnormal | normal | overflow
deriving DecidableEq, Repr

/-- R110: `Biased(e) = e + bias`, exact. -/
def biased (L : Layout) (e : Int) : Int := e + L.effBias

/-- R111: `Range(be)`. -/
def rangeOf (L : Layout) (be : Int) : ExpRange :=
  if be ≤ 0 then .subnormal
  else if 2 ^ L.expBits ≤ be then .overflow
  else .normal

/-- R112: the subnormal shift `sh = 1 - be`, for `be <= 0`. -/
def subnormalShift (be : Int) : Nat := (1 - be).toNat

end Sys2Proof.Machine
end

