-- ==== Sys2Proof/Syntax.lean ====
section
/-! DEFINITION. The syntax: one constructor per row of spec/opcode_table.json. -/

namespace Sys2Proof

/-- The rows of the opcode table. `encode` is the block's one operation (R56, R131). The other four are the table's input
classes of that operation, each with the operands its bit pattern leaves open; they are "not further operations" (R56): the
request decoder never yields them (log entry 12). -/
inductive Instr where
  /-- `ENCODE`: the operand is the whole request word. -/
  | encode (w : Word)
  /-- `ENCODE.class.ZERO`: pattern `s` and 63 zero bits. -/
  | encodeClassZero (sgn : Bit)
  /-- `ENCODE.class.INF`: pattern `s`, 11 one bits, 52 zero bits. -/
  | encodeClassInf (sgn : Bit)
  /-- `ENCODE.class.NAN`: pattern `s`, 11 one bits, a nonzero fraction. -/
  | encodeClassNan (sgn : Bit) (frac : BitVec 52)
  /-- `ENCODE.class.FINITE`: any sign, exponent field and fraction that no other class matches. -/
  | encodeClassFinite (sgn : Bit) (bexp : BitVec 11) (frac : BitVec 52)
deriving DecidableEq, Repr

end Sys2Proof
end

