-- ==== Sys2Proof/WellFormed.lean ====
section
/-! DEFINITION. Which terms of Instr are rows of the opcode table: the rows' `condition` entries. -/

namespace Sys2Proof

/-- A term stands for a word of its row. Only two rows carry a condition: NAN (`in_F != 0`) and FINITE (`in_E != 2047 and not
(in_E = 0 and in_F = 0)`). -/
def Instr.wellFormed : Instr → Bool
  | .encode _ => true
  | .encodeClassZero _ => true
  | .encodeClassInf _ => true
  | .encodeClassNan _ frac => frac != 0
  | .encodeClassFinite _ bexp frac => bexp != 2047 && !(bexp == 0 && frac == 0)

end Sys2Proof
end

