-- ==== Sys2Proof/Decode.lean ====
section
/-! DEFINITION. The request word's fields (R50), the opcode table as rows, the request decoder (R56), the decoder of one
table row, and the encoder. -/

namespace Sys2Proof

/-! ### The fields of a request word (R50) -/

/-- `in_s = req_value[63]`. -/
def reqSign (w : Word) : Bit := w.extractLsb' 63 1

/-- The biased exponent field `req_value[62:52]`; `in_E` is its number. -/
def reqExp (w : Word) : BitVec 11 := w.extractLsb' 52 11

/-- The fraction field `req_value[51:0]`; `in_F` is its number. -/
def reqFrac (w : Word) : BitVec 52 := w.extractLsb' 0 52

/-- The request word with these three fields, sign first (R50's pattern string). -/
def requestWord (sgn : Bit) (bexp : BitVec 11) (frac : BitVec 52) : Word := sgn ++ bexp ++ frac

/-! ### The opcode table -/

/-- The rows of spec/opcode_table.json. -/
inductive TableRow where
  | encode | classZero | classInf | classNan | classFinite
deriving DecidableEq, Repr

/-- The row's `mnemonic`. -/
def TableRow.mnemonic : TableRow → String
  | .encode => "ENCODE"
  | .classZero => "ENCODE.class.ZERO"
  | .classInf => "ENCODE.class.INF"
  | .classNan => "ENCODE.class.NAN"
  | .classFinite => "ENCODE.class.FINITE"

/-- The row's `mask`. -/
def TableRow.mask : TableRow → Word
  | .encode => 0x0000000000000000#64
  | .classZero => 0x7FFFFFFFFFFFFFFF#64
  | .classInf => 0x7FFFFFFFFFFFFFFF#64
  | .classNan => 0x7FF0000000000000#64
  | .classFinite => 0x0000000000000000#64

/-- The row's `match`. -/
def TableRow.pattern : TableRow → Word
  | .encode => 0x0000000000000000#64
  | .classZero => 0x0000000000000000#64
  | .classInf => 0x7FF0000000000000#64
  | .classNan => 0x7FF0000000000000#64
  | .classFinite => 0x0000000000000000#64

/-- The row's `condition`, true where the table gives none. -/
def TableRow.condition : TableRow → Word → Bool
  | .encode, _ => true
  | .classZero, _ => true
  | .classInf, _ => true
  | .classNan, w => reqFrac w != 0
  | .classFinite, w => reqExp w != 2047 && !(reqExp w == 0 && reqFrac w == 0)

/-- The word is one of the row's. -/
def TableRow.covers (r : TableRow) (w : Word) : Bool :=
  (w &&& r.mask) == r.pattern && r.condition w

/-- The term the row gives a word it covers: the operands are the bits the row's pattern leaves open. -/
def TableRow.term : TableRow → Word → Instr
  | .encode, w => .encode w
  | .classZero, w => .encodeClassZero (reqSign w)
  | .classInf, w => .encodeClassInf (reqSign w)
  | .classNan, w => .encodeClassNan (reqSign w) (reqFrac w)
  | .classFinite, w => .encodeClassFinite (reqSign w) (reqExp w) (reqFrac w)

/-- The row a term belongs to. -/
def rowOf : Instr → TableRow
  | .encode _ => .encode
  | .encodeClassZero _ => .classZero
  | .encodeClassInf _ => .classInf
  | .encodeClassNan _ _ => .classNan
  | .encodeClassFinite _ _ _ => .classFinite

/-! ### The request decoder -/

/-- R56: "A decoder for this block is the constant function: any 64-bit word decodes to `ENCODE` with that word as its
operand." -/
def decode (w : Word) : Instr := .encode w

/-- Why a vector is no request. -/
inductive DecodeError where
  /-- A request is always one 64-bit word (R58): a vector of another width is none. -/
  | notOneRequestWord (width : Nat)
deriving DecidableEq, Repr

/-- The decoder on a vector of any width: total, rejecting by name whatever is not one request word (R58). -/
def decodeVector (n : Nat) (v : BitVec n) : Except DecodeError Instr :=
  if h : n = 64 then .ok (decode (v.cast h)) else .error (.notOneRequestWord n)

/-- The instruction the decoder reads from an instruction whose low `nbits` bits are `w`, the bits above being zero. A request
has 64 bits (R58), so an opcode row of more bits is refused. -/
def decodeTableWord (nbits w : Nat) : Option Instr :=
  if nbits ≤ 64 then
    match decodeVector 64 (BitVec.ofNat 64 (w % 2 ^ nbits)) with
    | .ok i => some i
    | .error _ => none
  else none

/-! ### The decoder of one table row, and the encoder -/

/-- The term the table's row `r` reads from a word, where the row covers it. The four class rows together are `Classify`
written "from the table alone" (R56). -/
def decodeRow (r : TableRow) (w : Word) : Option Instr :=
  if r.covers w then some (r.term w) else none

/-- The class row of a word: the first of the four that covers it (R71: exactly one does). -/
def classRow (w : Word) : TableRow :=
  if TableRow.classZero.covers w then .classZero
  else if TableRow.classInf.covers w then .classInf
  else if TableRow.classNan.covers w then .classNan
  else .classFinite

/-- The encoder: the request word of a term, from the rows' `encoding` patterns. -/
def encode : Instr → Word
  | .encode w => w
  | .encodeClassZero sgn => requestWord sgn 0#11 0#52
  | .encodeClassInf sgn => requestWord sgn 2047#11 0#52
  | .encodeClassNan sgn frac => requestWord sgn 2047#11 frac
  | .encodeClassFinite sgn bexp frac => requestWord sgn bexp frac

end Sys2Proof
end

