-- ==== Sys2Proof/Machine/Arith.lean ====
section
/-! DEFINITION. The arithmetic primitives of R8: exact numbers, no wrap-around (R121). -/

namespace Sys2Proof.Machine

/-- `shift(x, k) = floor(x * 2^k)` (R8): left for `k >= 0`, right for `k < 0`. -/
def shift (x : Nat) (k : Int) : Nat :=
  if 0 ≤ k then x * 2 ^ k.toNat else x / 2 ^ (-k).toNat

/-- `lzc53(x) = 52 - floor(log2(x))` for `0 < x < 2^53` (R8). -/
def lzc53 (x : Nat) : Nat := 52 - Nat.log2 x

/-- `bits_n(x)` (R8), applied only to numbers below `2^n`. -/
def bitsN (n x : Nat) : BitVec n := BitVec.ofNat n x

/-- `0^n` (R8). -/
def zeros (n : Nat) : BitVec n := BitVec.ofNat n 0

/-- `1^n` (R8). -/
def ones (n : Nat) : BitVec n := BitVec.allOnes n

/-- `zext_N(v)` (R8): zero bits on the left. -/
def zext {n : Nat} (N : Nat) (v : BitVec n) : BitVec N := v.setWidth N

/-- `sext_N(v)` (R8), "defined for completeness and used by no rule". -/
def sext {n : Nat} (N : Nat) (v : BitVec n) : BitVec N := v.signExtend N

end Sys2Proof.Machine
end

