-- ==== Sys2Proof/Machine/Operands.lean ====
section
/-! DEFINITION. Operand assembly (R52): the sub-block `sign_exponent_calculator` (R70 to R75). -/

namespace Sys2Proof.Machine

/-- The class of a value word (R71). -/
inductive ValueClass where
  | zero | finite | inf | nan
deriving DecidableEq, Repr

/-- `in_E` (R50). -/
def inE (w : Word) : Nat := (reqExp w).toNat

/-- `in_F` (R50). -/
def inF (w : Word) : Nat := (reqFrac w).toNat

/-- R70: `Sign(w) = w[63]`, for every class. -/
def signOf (w : Word) : Bit := reqSign w

/-- R71: `Classify(w)`. -/
def classify (w : Word) : ValueClass :=
  if inE w = 2047 ∧ inF w ≠ 0 then .nan
  else if inE w = 2047 ∧ inF w = 0 then .inf
  else if inE w = 0 ∧ inF w = 0 then .zero
  else .finite

/-- A word of class FINITE: the functions below are defined on these words only (R75). -/
abbrev FiniteWord := { w : Word // classify w = .finite }

/-- R72: `RawSignificand(w)`, `S0`. -/
def rawSignificand (w : FiniteWord) : Nat := if inE w.1 ≠ 0 then 2 ^ 52 + inF w.1 else inF w.1

/-- R73: `RawExponent(w)`, `e0`. -/
def rawExponent (w : FiniteWord) : Int := if inE w.1 ≠ 0 then (inE w.1 : Int) - 1023 else -1022

/-- R74: the normalising shift count `lz`. -/
def leadingZeros (w : FiniteWord) : Nat := lzc53 (rawSignificand w)

/-- R74: `TrueExponent(w)`, `e = e0 - lz`. -/
def trueExponent (w : FiniteWord) : Int := rawExponent w - (leadingZeros w : Int)

end Sys2Proof.Machine
end

