-- ==== Sys2Proof/Machine/Mantissa.lean ====
section
/-! DEFINITION. The sub-block `mantissa_normalizer` (R90 to R96). Truncation only (R95). -/

namespace Sys2Proof.Machine

/-- R90: `Normalise(S0, lz) = S0 * 2^lz`. -/
def normalise (S0 lz : Nat) : Nat := S0 * 2 ^ lz

/-- The normalised significand `S` of a FINITE word (R90). -/
def significand (w : FiniteWord) : Nat := normalise (rawSignificand w) (leadingZeros w)

/-- R91: `Fraction(S)`, `Fr = S - 2^52`. -/
def fraction (S : Nat) : Nat := S - 2 ^ 52

/-- R93: `MantissaNormal(S) = bits_M(shift(S - 2^52, M - 52))`. -/
def mantissaNormal (M S : Nat) : BitVec M := bitsN M (shift (fraction S) ((M : Int) - 52))

/-- R94: `MantissaSubnormal(S, sh) = bits_M(shift(S, M - 52 - sh))`: the whole significand is shifted. -/
def mantissaSubnormal (M S sh : Nat) : BitVec M := bitsN M (shift S ((M : Int) - 52 - (sh : Int)))

/-- R96: the sub-block's output; not used on OVERFLOW, where the field is `0^M` (R114). -/
def mantissaOut (M S : Nat) (r : ExpRange) (sh : Nat) : BitVec M :=
  match r with
  | .subnormal => mantissaSubnormal M S sh
  | .normal => mantissaNormal M S
  | .overflow => zeros M

end Sys2Proof.Machine
end

