-- ==== Sys2Proof/Machine/State.lean ====
section
/-! DEFINITION. The state of one instance: the six registers of R10, the instance's parameters, what the host drives at the
coming edges; the reasons a run can stop; the state right after reset (R19). -/

namespace Sys2Proof.Machine

/-- The parameters of an instance, fixed at elaboration (R3, R7): a record that passes the checks (R151: the machine is defined
only over records that pass them). -/
structure Instance where
  layout      : Layout
  nanMantissa : BitVec layout.manBits
  layoutValid : layout.Valid
  nanAllowed  : layout.NanAllowed nanMantissa
deriving DecidableEq, Repr

/-- The phase register's values (R12). -/
inductive Phase where
  | idle | busy | done
deriving DecidableEq, Repr

/-- The input ports (R31) as sampled at one rising edge of `clk`. -/
structure EdgeInputs where
  rst      : Bool
  reqValid : Bool
  reqValue : Word
  rspReady : Bool
deriving DecidableEq, Repr

/-- The host drives nothing: no reset, no offer, no acceptance (log entry 8). -/
def EdgeInputs.quiet : EdgeInputs := { rst := false, reqValid := false, reqValue := 0, rspReady := false }

/-- The state. `phaseR` to `manR` are the six registers of R10; `inst` is the instance's constant parameter record (log entry
1); `inputs` and `edge` are the model's own: the input ports at the coming edges, and the number of the current cycle, which
indexes the free values (log entries 7 and 8). -/
structure State where
  inst   : Instance
  phaseR : Phase
  waitR  : Nat
  valueR : Word
  signR  : Bit
  expR   : BitVec inst.layout.expBits
  manR   : BitVec inst.layout.manBits
  inputs : List EdgeInputs
  edge   : Nat
deriving DecidableEq, Repr

/-- There is no run-time fault (R152; 93_implementation_defined.md: "No behaviour in this spec has treatment `fault`"): no
constructor. -/
inductive Fault where
deriving DecidableEq, Repr

/-- Why the model gives something no behaviour. -/
inductive Refusal where
  /-- Raised by `exec` for an instruction that has no meaning yet; no arm is left that raises it. Safe. -/
  | notModelled (mnemonic : String)
  /-- `InvalidLayout` (R150), raised by `elaborate` with the reason and the offending parameters, before any state exists. Safe:
  the spec refuses the record too. -/
  | invalidLayout (reason : LayoutError) (params : RawLayout)
  /-- Raised by `elaborate` for a `NAN_MANTISSA` that R7 does not allow (log entry 15). Safe. -/
  | nanMantissaNotAllowed (value : Nat)
  /-- Raised by a class row's meaning for a term that is no word of that row (log entry 13). Safe: no request word decodes to
  such a term. -/
  | notOfClass (mnemonic : String)
deriving DecidableEq, Repr

/-- The state right after a reset edge of a fresh instance (R19, R172): the phase is IDLE. The spec leaves the other registers
unspecified; the model names zero for each (log entry 3). -/
def State.afterReset (I : Instance) : State :=
  { inst := I, phaseR := .idle, waitR := 0, valueR := 0, signR := 0, expR := 0, manR := 0, inputs := [], edge := 0 }

/-- An instance with the `double` preset and the default `NAN_MANTISSA` (R6, R7). -/
def Instance.double : Instance :=
  { layout := Layout.double, nanMantissa := Layout.double.defaultNan,
    layoutValid := by decide, nanAllowed := Layout.double.defaultNan_allowed }

/-- The state after reset. The block has no default Layout (R6); the model names `double` (log entry 2). -/
def State.reset : State := State.afterReset Instance.double

end Sys2Proof.Machine
end

