-- ==== Sys2Proof/Machine/Assembler.lean ====
section
/-! DEFINITION. The sub-block `biased_exponent_assembler`: fields by case (R113 to R117), assembly and derived views (R118 to
R120), and the function `Encode` (R130) that composes the three sub-blocks. -/

namespace Sys2Proof.Machine

/-! ### Fields by case -/

/-- The exponent field of a FINITE word by range: `bits_E(be)` (R113), `1^E` (R114), `0^E` (R115). -/
def exponentField (L : Layout) (r : ExpRange) (be : Int) : BitVec L.expBits :=
  match r with
  | .subnormal => zeros L.expBits
  | .normal => bitsN L.expBits be.toNat
  | .overflow => ones L.expBits

/-- R117, `ZERO`: `(sign, 0^E, 0^M)`. -/
def zeroFields (L : Layout) (sgn : Bit) : Fields L :=
  { sign := sgn, exp := zeros L.expBits, man := zeros L.manBits }

/-- R117, `INF`: `(sign, 1^E, 0^M)`, also the pattern of R114. -/
def infFields (L : Layout) (sgn : Bit) : Fields L :=
  { sign := sgn, exp := ones L.expBits, man := zeros L.manBits }

/-- R117, `NAN`: `(sign, 1^E, NAN_MANTISSA)`. -/
def nanFields (I : Instance) (sgn : Bit) : Fields I.layout :=
  { sign := sgn, exp := ones I.layout.expBits, man := I.nanMantissa }

/-- The FINITE branch of R130: bias, range, then the exponent and mantissa fields of that range. -/
def finiteFields (L : Layout) (w : FiniteWord) : Fields L :=
  let be := biased L (trueExponent w)
  let r := rangeOf L be
  { sign := signOf w.1, exp := exponentField L r be,
    man := mantissaOut L.manBits (significand w) r (subnormalShift be) }

/-- R130: `Encode(Layout, w)`, total on all words. -/
def encodeValue (I : Instance) (w : Word) : Fields I.layout :=
  match h : classify w with
  | .nan => nanFields I (signOf w)
  | .inf => infFields I.layout (signOf w)
  | .zero => zeroFields I.layout (signOf w)
  | .finite => finiteFields I.layout ⟨w, h⟩

/-! ### Assembly and derived views -/

/-- R118: `Assemble(sign, exp, man) = sign ‖ exp ‖ man`, the canonical bit string. -/
def assemble {L : Layout} (f : Fields L) : BitVec L.W := f.sign ++ f.exp ++ f.man

/-- R119: `Word(bits) = zext_T(bits)`. -/
def container (L : Layout) (bits : BitVec L.W) : BitVec L.T := zext L.T bits

/-- The padded string of R120 has `H` bits. -/
theorem hexWidth (L : Layout) : L.W + (L.H - L.W) = L.H := by
  simp only [Layout.H]
  omega

/-- R120: `HexView(bits) = bits ‖ 0^(H-W)`. -/
def hexView (L : Layout) (bits : BitVec L.W) : BitVec L.H := (bits ++ zeros (L.H - L.W)).cast (hexWidth L)

/-- R120: digit `k` of the view, counted from 0 at the left: `hex[H-1-4k : H-4-4k]`. -/
def hexDigit (L : Layout) (hex : BitVec L.H) (k : Nat) : BitVec 4 := hex.extractLsb' (L.H - 4 - 4 * k) 4

/-- The hexadecimal view as its `H / 4` digits, first digit first (R55). -/
def hexDigits (L : Layout) (hex : BitVec L.H) : List (BitVec 4) := (List.range (L.H / 4)).map (hexDigit L hex)

end Sys2Proof.Machine
end

