-- ==== Sys2Proof/Machine/Outputs.lean ====
section
/-! DEFINITION. The output ports (R31, R33, R34) as functions of the registers, and the transfers at an edge (R32). -/

namespace Sys2Proof.Machine

/-- The data outputs of a Representation (R31, R34): the response tuple of R183. -/
structure Response (L : Layout) where
  sign     : Bit
  exponent : BitVec L.expBits
  mantissa : BitVec L.manBits
  bits     : BitVec L.W
  word     : BitVec L.T
  hex      : BitVec L.H
  value    : Word
deriving DecidableEq, Repr

/-- Every output port of R31. -/
structure Outputs (L : Layout) where
  reqReady : Bool
  rspValid : Bool
  data     : Response L
deriving DecidableEq, Repr

/-- The seven data outputs of the three fields and the original value, by the equations of R34. -/
def responseOf {L : Layout} (f : Fields L) (w : Word) : Response L :=
  { sign := f.sign, exponent := f.exp, mantissa := f.man, bits := assemble f,
    word := container L (assemble f), hex := hexView L (assemble f), value := w }

/-- The three result registers as fields. -/
def State.result (s : State) : Fields s.inst.layout := { sign := s.signR, exp := s.expR, man := s.manR }

/-- The stale contents a free output may depend on (R174 HZ1: "possibly the previous result, possibly a partial one"). -/
def State.held (s : State) : List Nat :=
  [s.waitR, s.valueR.toNat, s.signR.toNat, s.expR.toNat, s.manR.toNat]

/-- The data outputs outside DONE: a free value per port and cycle (R34, U20). -/
def freeResponse (s : State) : Response s.inst.layout :=
  { sign := Config.freeOutput .sign s.edge s.held 1
    exponent := Config.freeOutput .exponent s.edge s.held _
    mantissa := Config.freeOutput .mantissa s.edge s.held _
    bits := Config.freeOutput .bits s.edge s.held _
    word := Config.freeOutput .word s.edge s.held _
    hex := Config.freeOutput .hex s.edge s.held _
    value := Config.freeOutput .value s.edge s.held 64 }

/-- R33: `req_ready = 1` exactly when `phase_r = IDLE`. -/
def State.reqReady (s : State) : Bool := s.phaseR == .idle

/-- R33: `rsp_valid = 1` exactly when `phase_r = DONE`. -/
def State.rspValid (s : State) : Bool := s.phaseR == .done

/-- R34: the data outputs. -/
def State.dataOut (s : State) : Response s.inst.layout :=
  match s.phaseR with
  | .done => responseOf s.result s.valueR
  | .idle => freeResponse s
  | .busy => freeResponse s

/-- All output ports in the current cycle. -/
def State.outputs (s : State) : Outputs s.inst.layout :=
  { reqReady := s.reqReady, rspValid := s.rspValid, data := s.dataOut }

/-- The input ports as the coming edge samples them: the first of the host's list; past its end the host is quiet (log entry
8). -/
def State.sampled (s : State) : EdgeInputs := s.inputs.headD EdgeInputs.quiet

/-- R32: the word of the request transfer at the coming edge, if there is one. -/
def State.requestTransfer (s : State) : Option Word :=
  if !s.sampled.rst && s.sampled.reqValid && s.reqReady then some s.sampled.reqValue else none

/-- R32: the response transferred at the coming edge, if there is one. -/
def State.responseTransfer (s : State) : Option (Response s.inst.layout) :=
  if !s.sampled.rst && s.rspValid && s.sampled.rspReady then some s.dataOut else none

end Sys2Proof.Machine
end

