-- ==== Sys2Proof/Machine/Ops.lean ====
section
/-! DEFINITION. The named operations on the registers, one per rule of the phase machine (R13 to R16, R170), the write of a result
(R14, R131), and the fetch of the request in flight. The block takes no exception (R152), so no operation enters or leaves one. -/

namespace Sys2Proof.Machine

/-- One rising edge of `clk` has passed: its inputs are used up and the cycle number advances. -/
def State.tick (s : State) : State := { s with inputs := s.inputs.tail, edge := s.edge + 1 }

/-- `LATENCY` at this acceptance: at least 1, otherwise free (R7, R13, R180). -/
def latency (edge : Nat) (L : Layout) (w : Word) : Nat := Config.latencyDraw edge L w + 1

/-- R170: reset writes the phase register and nothing else. -/
def State.resetEdge (s : State) : State := { s with phaseR := .idle }

/-- R13, Accept: an offered word is latched with its LATENCY draw. -/
def State.accept (s : State) : State :=
  if s.sampled.reqValid then
    { s with
      valueR := s.sampled.reqValue
      waitR := latency s.edge s.inst.layout s.sampled.reqValue - 1
      phaseR := .busy }
  else s

/-- R14 with `wait_r > 0`. -/
def State.countDown (s : State) : State := { s with waitR := s.waitR - 1 }

/-- R131: what the operation has written when its result stands: the word in `value_r`, no edge left to wait, the three result
registers, DONE. -/
def State.complete (s : State) (w : Word) (f : Fields s.inst.layout) : State :=
  { s with valueR := w, waitR := 0, signR := f.sign, expR := f.exp, manR := f.man, phaseR := .done }

/-- R15, Deliver. -/
def State.deliver (s : State) : State := { s with phaseR := .idle }

/-- R16, Hold: no register changes. -/
def State.hold (s : State) : State := s

/-- The instruction in flight: the request word held in `value_r`, decoded (R14, R56; log entry 10). -/
def State.fetched (s : State) : Instr := decode s.valueR

end Sys2Proof.Machine
end

