-- ==== Sys2Proof/Machine/Encode.lean ====
section
/-! DEFINITION. The meanings of the opcode table's rows: the operation ENCODE (R131) and its four input classes (R71, R117, R130). -/

namespace Sys2Proof.Machine

/-- R131, ENCODE: the result registers receive `Encode(Layout, w)`; nothing is raised for any word (R152). -/
def execEncode (w : Word) (s : State) : Host.Outcome State Fault Refusal :=
  .next (s.complete w (encodeValue s.inst w))

/-- ENCODE of a zero: `(sign, 0^E, 0^M)` (R117). -/
def execEncodeClassZero (sgn : Bit) (s : State) : Host.Outcome State Fault Refusal :=
  .next (s.complete (requestWord sgn 0#11 0#52) (zeroFields s.inst.layout sgn))

/-- ENCODE of an infinity: `(sign, 1^E, 0^M)` (R117). -/
def execEncodeClassInf (sgn : Bit) (s : State) : Host.Outcome State Fault Refusal :=
  .next (s.complete (requestWord sgn 2047#11 0#52) (infFields s.inst.layout sgn))

/-- ENCODE of a NaN: `(sign, 1^E, NAN_MANTISSA)`, the payload ignored (R117). A zero fraction is no NaN: the row's condition is
`in_F != 0` (log entry 13). -/
def execEncodeClassNan (sgn : Bit) (frac : BitVec 52) (s : State) : Host.Outcome State Fault Refusal :=
  if frac = 0 then .refused (.notOfClass "ENCODE.class.NAN")
  else .next (s.complete (requestWord sgn 2047#11 frac) (nanFields s.inst sgn))

/-- ENCODE of a nonzero finite word: the branches SUBNORMAL, NORMAL, OVERFLOW of R130. A term that is no FINITE word has no
significand (R75) and is no term of the row (log entry 13). -/
def execEncodeClassFinite (sgn : Bit) (bexp : BitVec 11) (frac : BitVec 52) (s : State) :
    Host.Outcome State Fault Refusal :=
  if h : classify (requestWord sgn bexp frac) = .finite then
    .next (s.complete (requestWord sgn bexp frac) (finiteFields s.inst.layout ⟨requestWord sgn bexp frac, h⟩))
  else .refused (.notOfClass "ENCODE.class.FINITE")

end Sys2Proof.Machine
end

