-- ==== Sys2Proof/Machine/Dispatch.lean ====
section
/-! DEFINITION. One arm per row of the opcode table. -/

namespace Sys2Proof.Machine

def exec (i : Instr) (s : State) : Host.Outcome State Fault Refusal :=
  match i with
  | .encode w => Sys2Proof.Machine.execEncode w s
  | .encodeClassZero sgn => Sys2Proof.Machine.execEncodeClassZero sgn s
  | .encodeClassInf sgn => Sys2Proof.Machine.execEncodeClassInf sgn s
  | .encodeClassNan sgn frac => Sys2Proof.Machine.execEncodeClassNan sgn frac s
  | .encodeClassFinite sgn bexp frac => Sys2Proof.Machine.execEncodeClassFinite sgn bexp frac s

end Sys2Proof.Machine
end

