-- ==== Sys2Proof/Machine/Step.lean ====
section
/-! DEFINITION. One step: one rising edge of `clk` (R12). -/

namespace Sys2Proof.Machine

/-- R12: exactly one of R170, R13, R14, R15, R16 applies, chosen by `rst`, `phase_r`, `req_valid`, `rsp_ready` and `wait_r`; reset
has priority. The edge at which BUSY ends runs the instruction in flight (R14, log entry 10). -/
def step (s : State) : Host.Outcome State Fault Refusal :=
  if s.sampled.rst then .next s.resetEdge.tick
  else
    match s.phaseR with
    | .idle => .next s.accept.tick
    | .busy => if 0 < s.waitR then .next s.countDown.tick else exec s.fetched s.tick
    | .done => if s.sampled.rspReady then .next s.deliver.tick else .next s.hold.tick

/-- The state with a request in flight whose wait is over, its bits those of `w` below `nbits` and zero above, and a coming edge
without reset: the very next step runs that request (log entry 10). -/
def State.withFetchWord (s : State) (nbits w : Nat) : State :=
  { s with
    phaseR := .busy
    waitR := 0
    valueR := BitVec.ofNat 64 (w % 2 ^ nbits)
    inputs := EdgeInputs.quiet :: s.inputs }

end Sys2Proof.Machine
end

