-- ==== Sys2Proof/Machine/Elaborate.lean ====
section
/-! DEFINITION. Elaboration (R150, R151, R173): an instance is made from a parameter record that passes the checks, or refused by
name. -/

namespace Sys2Proof.Machine

/-- `NAN_MANTISSA` as an `M`-bit constant: the default of R7 where none is given, else the given number where it fits and is
allowed. -/
def nanChoice (L : Layout) (nan : Option Nat) : Option { v : BitVec L.manBits // L.NanAllowed v } :=
  match nan with
  | none => some ⟨L.defaultNan, L.defaultNan_allowed⟩
  | some x =>
    if h : x < 2 ^ L.manBits ∧ L.NanAllowed (BitVec.ofNat L.manBits x) then some ⟨BitVec.ofNat L.manBits x, h.2⟩
    else none

/-- Elaboration and the first reset edge (R173): the state right after reset of an instance with these parameters, or
`InvalidLayout` with the lowest reason and the offending values, before any state exists (R150, R151). -/
def elaborate (r : RawLayout) (nan : Option Nat) : Host.Outcome State Fault Refusal :=
  match h : r.failure with
  | some reason => .refused (.invalidLayout reason r)
  | none =>
    match nanChoice r.toLayout nan with
    | some v => .next (State.afterReset
        { layout := r.toLayout, nanMantissa := v.1, layoutValid := r.toLayout_valid h, nanAllowed := v.2 })
    | none => .refused (.nanMantissaNotAllowed (nan.getD 0))

end Sys2Proof.Machine
end

