-- ==== Sys2Proof/Machine/Reference.lean ====
section
/-! DEFINITION. The source document's algorithm in its own form, over exact rationals: the normalising loop (R76), the repeated
doubling (R92), and the encoding built from them (R130's document steps). The step does not call these; they are the reference that
claims compare `encodeValue` with. -/

namespace Sys2Proof.Machine

/-- The magnitude of a FINITE word, `RawSignificand * 2^(RawExponent - 52)` (R51, R72). -/
def magnitude (w : FiniteWord) : ℚ := (rawSignificand w : ℚ) * (2 : ℚ) ^ (rawExponent w - 52)

/-- R76, first loop: `while m < 1 : m <- m * 2 ; e <- e - 1`, at most `n` times. -/
def doubleUp : Nat → ℚ → Int → ℚ × Int
  | 0, m, e => (m, e)
  | n + 1, m, e => if m < 1 then doubleUp n (m * 2) (e - 1) else (m, e)

/-- R76, second loop: `while m >= 2 : m <- m / 2 ; e <- e + 1`, at most `n` times. -/
def halveDown : Nat → ℚ → Int → ℚ × Int
  | 0, m, e => (m, e)
  | n + 1, m, e => if 2 ≤ m then halveDown n (m / 2) (e + 1) else (m, e)

/-- R76: the normalising loop, with fuel for each of its two loops. -/
def normaliseLoop (fuel : Nat) (m : ℚ) : ℚ × Int :=
  let p := doubleUp fuel m 0
  halveDown fuel p.1 p.2

/-- R92: `ExtractBits(q, n)`, the repeated doubling; the first emitted bit is the leftmost. -/
def extractBits : (n : Nat) → ℚ → BitVec n
  | 0, _ => 0#0
  | n + 1, q =>
    if 1 ≤ 2 * q then BitVec.cons true (extractBits n (2 * q - 1)) else BitVec.cons false (extractBits n (2 * q))

/-- The fuel of `documentEncode`: R76 needs at most 1074 iterations for a binary64 word (log entry 17). -/
def loopFuel : Nat := 1074

/-- The document's steps 3 to 5 for a nonzero finite value, loops taken literally. -/
def documentFinite (L : Layout) (w : FiniteWord) : Fields L :=
  let p := normaliseLoop loopFuel (magnitude w)
  let be := p.2 + L.effBias
  if be ≤ 0 then
    { sign := signOf w.1, exp := zeros L.expBits, man := extractBits L.manBits (p.1 / 2 ^ (1 - be).toNat) }
  else if 2 ^ L.expBits ≤ be then
    { sign := signOf w.1, exp := ones L.expBits, man := zeros L.manBits }
  else
    { sign := signOf w.1, exp := bitsN L.expBits be.toNat, man := extractBits L.manBits (p.1 - 1) }

/-- The document's algorithm, with the class test before its step 3 (R132). -/
def documentEncode (I : Instance) (w : Word) : Fields I.layout :=
  match h : classify w with
  | .nan => nanFields I (signOf w)
  | .inf => infFields I.layout (signOf w)
  | .zero => zeroFields I.layout (signOf w)
  | .finite => documentFinite I.layout ⟨w, h⟩

end Sys2Proof.Machine
end

