-- ==== Sys2Proof/Safety.lean ====
section
/-! DEFINITION. The terms claims use: what a safe run is, the invariant of the phase machine (R17), the observation of a run
(R183), and the standard reading of a bit string (43_fp_encoder_top.md section 2), which the block does not implement. -/

namespace Sys2Proof.Machine

/-- `k` rising edges. -/
def run (k : Nat) (s : State) : Host.Outcome State Fault Refusal := Sys2Proof.core.run k s

/-- A run of `k` edges is safe: it ends in a state, in no fault and no refusal (R152). -/
def SafeRun (k : Nat) (s : State) : Prop := ∃ t, run k s = .next t

/-- R17: whenever the phase is DONE the result registers hold `Encode(Layout, value_r)`. -/
def State.Inv (s : State) : Prop := s.phaseR = .done → s.result = encodeValue s.inst s.valueR

/-! ### Observation of a run -/

/-- A response tuple with the Layout that gives its widths. -/
structure Observed where
  layout   : Layout
  response : Response layout
deriving DecidableEq, Repr

/-- The response an instance owes a request word (R183: determined by the word and the Layout alone). -/
def owed (I : Instance) (w : Word) : Observed :=
  { layout := I.layout, response := responseOf (encodeValue I w) w }

/-- The transfers since the last reset edge, oldest first (R37). -/
structure History where
  requests  : List Word
  responses : List Observed
deriving DecidableEq, Repr

/-- Nothing transferred yet. -/
def History.empty : History := { requests := [], responses := [] }

/-- The history after the coming edge: a reset edge starts it anew (R37, R171). -/
def State.record (s : State) (h : History) : History :=
  if s.sampled.rst then History.empty
  else { requests := h.requests ++ s.requestTransfer.toList,
         responses := h.responses ++ (s.responseTransfer.map (Observed.mk s.inst.layout)).toList }

/-- What a history says beside a state (R37, R171, R183): the responses are those owed to the first requests, in order; at most one
request has none, the one in flight, and its word is in `value_r`. -/
def State.HistoryInv (s : State) (h : History) : Prop :=
  s.Inv ∧
  h.responses = (h.requests.take h.responses.length).map (owed s.inst) ∧
  h.requests.length = h.responses.length + (if s.phaseR = .idle then 0 else 1) ∧
  (s.phaseR ≠ .idle → h.requests.getLast? = some s.valueR)

/-- `k` edges with the history they leave; a run that stops early gives none. -/
def observe : Nat → State → History → Option (State × History)
  | 0, s, h => some (s, h)
  | k + 1, s, h =>
    match step s with
    | .next t => observe k t (s.record h)
    | .fault _ => none
    | .refused _ => none

/-- What the host may use at one edge: the two handshake outputs, and the response where one is transferred (HZ1). -/
structure EdgeView where
  reqReady : Bool
  rspValid : Bool
  response : Option Observed
deriving DecidableEq, Repr

/-- The view of the coming edge. -/
def State.view (s : State) : EdgeView :=
  { reqReady := s.reqReady, rspValid := s.rspValid, response := s.responseTransfer.map (Observed.mk s.inst.layout) }

/-- The views of `k` edges, first edge first. -/
def views : Nat → State → List EdgeView
  | 0, _ => []
  | k + 1, s =>
    s.view :: (match step s with
      | .next t => views k t
      | .fault _ => []
      | .refused _ => [])

/-- The input ports as the `j`-th edge from now samples them (0: the coming edge). -/
def State.sampledAt (s : State) (j : Nat) : EdgeInputs := (s.inputs.drop j).headD EdgeInputs.quiet

/-- The coming `k` edges are without reset. -/
def State.noReset (s : State) (k : Nat) : Prop := ∀ j, j < k → (s.sampledAt j).rst = false

/-- The state `k` edges later as far as the host's list and the cycle number go. -/
def State.ticks (k : Nat) (s : State) : State := { s with inputs := s.inputs.drop k, edge := s.edge + k }

/-! ### What words and bit strings denote (from general knowledge, as R51 and 43_fp_encoder_top.md section 2 say; log entry 18) -/

/-- A denoted value: a nonzero number, a zero with its sign bit (R51: "negative zero when `in_s = 1`"), an infinity with its sign
bit, or a NaN. -/
inductive Reading where
  | number (q : ℚ)
  | zero (sgn : Bit)
  | infinity (sgn : Bit)
  | nan
deriving DecidableEq, Repr

/-- `(-1)^sign`. -/
def signFactor (sgn : Bit) : ℚ := if sgn = 1 then -1 else 1

/-- R51: the value a request word denotes. -/
def wordReading (w : Word) : Reading :=
  if inE w = 2047 then
    if inF w = 0 then .infinity (signOf w) else .nan
  else if inE w = 0 then
    if inF w = 0 then .zero (signOf w) else .number (signFactor (signOf w) * ((inF w : ℚ) * (2 : ℚ) ^ (-1074 : Int)))
  else .number (signFactor (signOf w) * (((2 ^ 52 + inF w : Nat) : ℚ) * (2 : ℚ) ^ ((inE w : Int) - 1075)))

/-- `Decode(Layout, sign, exp, man)` of 43_fp_encoder_top.md section 2; where its formula gives 0 the reading keeps the sign, as R51 does
for a request word. -/
def readFields {L : Layout} (f : Fields L) : Reading :=
  if f.exp.toNat = 2 ^ L.expBits - 1 then
    if f.man.toNat = 0 then .infinity f.sign else .nan
  else if f.exp.toNat = 0 then
    if f.man.toNat = 0 then .zero f.sign
    else .number (signFactor f.sign * ((f.man.toNat : ℚ) / 2 ^ L.manBits * (2 : ℚ) ^ (1 - L.effBias)))
  else
    .number (signFactor f.sign * ((1 + (f.man.toNat : ℚ) / 2 ^ L.manBits) * (2 : ℚ) ^ ((f.exp.toNat : Int) - L.effBias)))

end Sys2Proof.Machine
end

