-- ==== Sys2Proof/Certificates/Slice0/Obligations.lean ====
section
/-! DEFINITION. The statements for the provers. Each docstring names the rule of spec/ it formalises. The fields `inputs` and
`edge` of State are the model's own (log entries 7 and 8): one edge drops the head of `inputs` and counts `edge` up. -/

open Sys2Proof Sys2Proof.Machine

/-! ## The phase machine -/

/-- R170: at an edge with `rst = 1` the phase becomes IDLE and nothing else is written, whatever the phase was; no request is
accepted and no response delivered at it. -/
def Obligations.ResetEdgeWritesOnlyThePhase : Prop :=
  ∀ s : State, s.sampled.rst = true →
    step s = .next { s with phaseR := .idle, inputs := s.inputs.tail, edge := s.edge + 1 } ∧
    s.requestTransfer = none ∧ s.responseTransfer = none

/-- R19: right after reset the phase is IDLE, for every instance. That the other registers are zero there is the model's choice
(log entry 3) and is not stated. -/
def Obligations.AfterResetThePhaseIsIdle : Prop :=
  State.reset.phaseR = .idle ∧ ∀ I : Instance, (State.afterReset I).phaseR = .idle ∧ (State.afterReset I).inst = I

/-- R13, Accept: an offered word is latched with its LATENCY, which is at least 1; LATENCY is the draw of log entry 5, the model's
choice. -/
def Obligations.AcceptLatchesTheOfferedWord : Prop :=
  ∀ s : State, s.sampled.rst = false → s.phaseR = .idle →
    (s.sampled.reqValid = true → 1 ≤ latency s.edge s.inst.layout s.sampled.reqValue ∧
      step s = .next { s with
        valueR := s.sampled.reqValue, waitR := latency s.edge s.inst.layout s.sampled.reqValue - 1, phaseR := .busy,
        inputs := s.inputs.tail, edge := s.edge + 1 }) ∧
    (s.sampled.reqValid = false →
      step s = .next { s with inputs := s.inputs.tail, edge := s.edge + 1 })

/-- R14, Compute: the wait counts down; at zero the result registers receive `Encode(Layout, value_r)` and the phase becomes DONE.
The inputs other than `rst` do not matter. -/
def Obligations.ComputeCountsDownThenWritesTheResult : Prop :=
  ∀ s : State, s.sampled.rst = false → s.phaseR = .busy →
    (0 < s.waitR →
      step s = .next { s with waitR := s.waitR - 1, inputs := s.inputs.tail, edge := s.edge + 1 }) ∧
    (s.waitR = 0 →
      step s = .next { s with
        signR := (encodeValue s.inst s.valueR).sign, expR := (encodeValue s.inst s.valueR).exp,
        manR := (encodeValue s.inst s.valueR).man, phaseR := .done,
        inputs := s.inputs.tail, edge := s.edge + 1 })

/-- R15, Deliver: only the phase changes, the response counts as transferred at this edge, no request is accepted at it, and the
next edge can accept one. -/
def Obligations.DeliverReturnsToIdle : Prop :=
  ∀ s : State, s.sampled.rst = false → s.phaseR = .done → s.sampled.rspReady = true →
    step s = .next { s with phaseR := .idle, inputs := s.inputs.tail, edge := s.edge + 1 } ∧
    s.responseTransfer = some s.dataOut ∧ s.requestTransfer = none ∧
    ({ s with phaseR := .idle, inputs := s.inputs.tail, edge := s.edge + 1 } : State).reqReady = true

/-- R16, Hold: in DONE, while the host does not raise `rsp_ready` (and there is no reset), no register changes for any number of
edges, whatever `req_valid` and `req_value` are. -/
def Obligations.HoldChangesNoRegister : Prop :=
  ∀ (k : Nat) (s : State), s.phaseR = .done →
    (∀ j, j < k → (s.sampledAt j).rst = false ∧ (s.sampledAt j).rspReady = false) →
    run k s = .next { s with inputs := s.inputs.drop k, edge := s.edge + k }

/-- R33: the handshake outputs are functions of the phase alone; at an edge with `rst = 1` nothing is transferred; after a reset edge
`req_ready = 1` and `rsp_valid = 0`. -/
def Obligations.HandshakeOutputsFollowThePhase : Prop :=
  (∀ s : State, (s.reqReady = true ↔ s.phaseR = .idle) ∧ (s.rspValid = true ↔ s.phaseR = .done)) ∧
  (∀ (s : State) (ins : List EdgeInputs),
    ({ s with inputs := ins } : State).reqReady = s.reqReady ∧ ({ s with inputs := ins } : State).rspValid = s.rspValid) ∧
  (∀ s : State, s.sampled.rst = true → s.requestTransfer = none ∧ s.responseTransfer = none) ∧
  (∀ s t : State, s.sampled.rst = true → step s = .next t → t.reqReady = true ∧ t.rspValid = false) ∧
  (∀ I : Instance, (State.afterReset I).reqReady = true ∧ (State.afterReset I).rspValid = false)

/-- R32: a transfer happens exactly at an edge without reset at which both sides are ready; the request carries the word sampled at that
edge, the response the data outputs. -/
def Obligations.TransfersNeedBothSides : Prop :=
  ∀ s : State,
    (∀ w : Word, s.requestTransfer = some w ↔
      s.sampled.rst = false ∧ s.sampled.reqValid = true ∧ s.reqReady = true ∧ s.sampled.reqValue = w) ∧
    (∀ r : Response s.inst.layout, s.responseTransfer = some r ↔
      s.sampled.rst = false ∧ s.rspValid = true ∧ s.sampled.rspReady = true ∧ s.dataOut = r)

/-- R34: in DONE the data outputs are these functions of the registers. (Outside DONE they are free: log entry 6.) -/
def Obligations.DataOutputsInDone : Prop :=
  ∀ s : State, s.phaseR = .done →
    s.outputs.data.sign = s.signR ∧ s.outputs.data.exponent = s.expR ∧ s.outputs.data.mantissa = s.manR ∧
    s.outputs.data.bits = s.signR ++ s.expR ++ s.manR ∧
    s.outputs.data.word = container s.inst.layout s.outputs.data.bits ∧
    s.outputs.data.hex = hexView s.inst.layout s.outputs.data.bits ∧
    s.outputs.data.value = s.valueR

/-- R17 (the spec derives it from R14 to R16 and R170): every step keeps the invariant that in DONE the result registers hold
`Encode(Layout, value_r)`. -/
def Obligations.StepKeepsTheResultInvariant : Prop :=
  ∀ s t : State, s.Inv → step s = .next t → t.Inv

/-- The invariant of R17 holds right after reset, of every instance. -/
def Obligations.ResultInvariantAfterReset : Prop :=
  State.reset.Inv ∧ ∀ I : Instance, (State.afterReset I).Inv

/-- R152: no word and no sequence of edges makes the block fault or stop. -/
def Obligations.EveryRunIsSafe : Prop :=
  ∀ (k : Nat) (s : State), SafeRun k s

/-- R10's column "written by": the result registers are written only at the edge that ends BUSY, and `value_r` only where a request
is transferred or at that edge, where it keeps its value; the instance's parameters never. -/
def Obligations.OnlyItsRuleWritesARegister : Prop :=
  ∀ s t : State, step s = .next t →
    (¬ (s.sampled.rst = false ∧ s.phaseR = .busy ∧ s.waitR = 0) →
      ∃ (ph : Phase) (wt : Nat) (v : Word),
        t = { s with phaseR := ph, waitR := wt, valueR := v, inputs := s.inputs.tail, edge := s.edge + 1 }) ∧
    (s.requestTransfer = none →
      ∃ (ph : Phase) (wt : Nat) (f : Fields s.inst.layout),
        t = { s with
          phaseR := ph, waitR := wt, signR := f.sign, expR := f.exp, manR := f.man,
          inputs := s.inputs.tail, edge := s.edge + 1 })

/-- R133, R12: the phase goes round IDLE, BUSY, DONE only. BUSY is entered by a request transfer, DONE from BUSY when the wait is over,
IDLE by a response transfer or by reset. -/
def Obligations.PhaseGoesRoundOneWay : Prop :=
  ∀ s t : State, step s = .next t →
    (s.phaseR ≠ .busy → t.phaseR = .busy → s.phaseR = .idle ∧ s.requestTransfer = some t.valueR) ∧
    (s.phaseR ≠ .done → t.phaseR = .done → s.phaseR = .busy ∧ s.waitR = 0 ∧ s.sampled.rst = false) ∧
    (s.phaseR ≠ .idle → t.phaseR = .idle →
      s.sampled.rst = true ∨ (s.phaseR = .done ∧ s.responseTransfer.isSome = true))

/-- R39, HZ6: no run changes the Layout or NAN_MANTISSA. -/
def Obligations.ParametersNeverChange : Prop :=
  ∀ (k : Nat) (s t : State), run k s = .next t → t.inst = s.inst

/-- R131, R14: a request transferred at the coming edge is in DONE after its LATENCY further edges, with `Encode(Layout, w)` in the
result registers and every other register as R131 says, and is in BUSY until then; nothing the host does in between but reset
matters. LATENCY is the draw of log entry 5. -/
def Obligations.EncodeFromTransferToDone : Prop :=
  ∀ (s : State) (w : Word), s.requestTransfer = some w → ∀ n : Nat, n = latency s.edge s.inst.layout w →
    s.noReset (n + 1) →
    run (n + 1) s = .next { s with
      phaseR := .done, waitR := 0, valueR := w,
      signR := (encodeValue s.inst w).sign, expR := (encodeValue s.inst w).exp, manR := (encodeValue s.inst w).man,
      inputs := s.inputs.drop (n + 1), edge := s.edge + (n + 1) } ∧
    ∀ j, 1 ≤ j → j ≤ n → ∃ t, run j s = .next t ∧ t.phaseR = .busy ∧ t.valueR = w

/-- R40, R183: an accepted request gets exactly the response it is owed, at the first edge at which the host raises `rsp_ready` after the
LATENCY edges, and the block is then IDLE, unless a reset comes between. LATENCY is the draw of log entry 5. -/
def Obligations.AcceptedRequestIsAnswered : Prop :=
  ∀ (s : State) (w : Word) (d : Nat), s.requestTransfer = some w →
    ∀ n : Nat, n = latency s.edge s.inst.layout w →
    s.noReset (n + d + 2) →
    (∀ j, n + 1 ≤ j → j < n + 1 + d → (s.sampledAt j).rspReady = false) →
    (s.sampledAt (n + 1 + d)).rspReady = true →
    (∃ t, run (n + 1 + d) s = .next t ∧ t.responseTransfer.map (Observed.mk t.inst.layout) = some (owed s.inst w)) ∧
    (∃ t, run (n + d + 2) s = .next t ∧ t.phaseR = .idle)

/-- R37, R183: from an IDLE state, whatever the host does at `k` edges (resets included), the responses since the last reset are those
owed to the requests since it, in order, and at most one request is without its response: the one in flight. -/
def Obligations.ResponsesMatchRequestsInOrder : Prop :=
  ∀ (k : Nat) (s : State), s.phaseR = .idle →
    ∃ t h, observe k s History.empty = some (t, h) ∧
      h.responses = (h.requests.take h.responses.length).map (owed s.inst) ∧
      h.requests.length = h.responses.length + (if t.phaseR = .idle then 0 else 1)

/-- R19, U21: what the five data registers hold in IDLE, and what the result registers hold in BUSY, is never seen: the handshake
outputs and the responses of every later edge are the same whatever it is. -/
def Obligations.StaleRegistersAreNeverSeen : Prop :=
  ∀ (k : Nat) (s : State) (wt : Nat) (v : Word) (f : Fields s.inst.layout),
    (s.phaseR = .idle →
      views k { s with waitR := wt, valueR := v, signR := f.sign, expR := f.exp, manR := f.man } = views k s) ∧
    (s.phaseR = .busy →
      views k { s with signR := f.sign, expR := f.exp, manR := f.man } = views k s)

/-- R171: a reset edge drops the request in flight: as long as the host offers nothing after it, no response is transferred. -/
def Obligations.ResetDropsTheRequestInFlight : Prop :=
  ∀ (k : Nat) (s : State), s.sampled.rst = true →
    (∀ j, 1 ≤ j → j ≤ k → (s.sampledAt j).reqValid = false) →
    ∀ v ∈ views (k + 1) s, v.response = none

/-! ## The operation and its table rows -/

/-- R131: ENCODE completes from every state for every word; it writes the six registers and nothing else. -/
def Obligations.EncodeCompletes : Prop :=
  ∀ (w : Word) (s : State),
    exec (.encode w) s = .next { s with
      phaseR := .done, waitR := 0, valueR := w,
      signR := (encodeValue s.inst w).sign, expR := (encodeValue s.inst w).exp, manR := (encodeValue s.inst w).man }

/-- R130 from the bits of the word, class by class and range by range, the shifts written as exact quotients. For a finite word
`S0`, `e0` are as R72 and R73 say, and `lz` is any count that brings `S0` into `[2^52, 2^53)`. -/
def Obligations.EncodeFollowsTheWholeFunction : Prop :=
  ∀ (w : Word) (s : State) (E F : Nat), E = (w.extractLsb' 52 11).toNat → F = (w.extractLsb' 0 52).toNat →
    (E = 2047 → F ≠ 0 → exec (.encode w) s = .next { s with
      phaseR := .done, waitR := 0, valueR := w, signR := w.extractLsb' 63 1,
      expR := BitVec.allOnes _, manR := s.inst.nanMantissa }) ∧
    (E = 2047 → F = 0 → exec (.encode w) s = .next { s with
      phaseR := .done, waitR := 0, valueR := w, signR := w.extractLsb' 63 1,
      expR := BitVec.allOnes _, manR := 0 }) ∧
    (E = 0 → F = 0 → exec (.encode w) s = .next { s with
      phaseR := .done, waitR := 0, valueR := w, signR := w.extractLsb' 63 1, expR := 0, manR := 0 }) ∧
    (E ≠ 2047 → ¬ (E = 0 ∧ F = 0) →
      ∀ (S lz : Nat) (be : Int),
        S = (if E = 0 then F else 2 ^ 52 + F) * 2 ^ lz → 2 ^ 52 ≤ S → S < 2 ^ 53 →
        be = (if E = 0 then (-1022 : Int) else (E : Int) - 1023) - (lz : Int) + s.inst.layout.effBias →
        (be ≤ 0 → exec (.encode w) s = .next { s with
          phaseR := .done, waitR := 0, valueR := w, signR := w.extractLsb' 63 1, expR := 0,
          manR := BitVec.ofNat _ (S * 2 ^ s.inst.layout.manBits / 2 ^ (52 + (1 - be).toNat)) }) ∧
        (2 ^ s.inst.layout.expBits ≤ be → exec (.encode w) s = .next { s with
          phaseR := .done, waitR := 0, valueR := w, signR := w.extractLsb' 63 1,
          expR := BitVec.allOnes _, manR := 0 }) ∧
        (1 ≤ be → be < 2 ^ s.inst.layout.expBits → exec (.encode w) s = .next { s with
          phaseR := .done, waitR := 0, valueR := w, signR := w.extractLsb' 63 1,
          expR := BitVec.ofNat _ be.toNat,
          manR := BitVec.ofNat _ ((S - 2 ^ 52) * 2 ^ s.inst.layout.manBits / 2 ^ 52) }))

/-- R117, opcode table rows ENCODE.class.ZERO and ENCODE.class.INF: both complete from every state with the fixed patterns. -/
def Obligations.ZeroAndInfRowsComplete : Prop :=
  ∀ (sgn : Bit) (s : State),
    exec (.encodeClassZero sgn) s = .next { s with
      phaseR := .done, waitR := 0, valueR := sgn ++ 0#63, signR := sgn, expR := 0, manR := 0 } ∧
    exec (.encodeClassInf sgn) s = .next { s with
      phaseR := .done, waitR := 0, valueR := sgn ++ BitVec.allOnes 11 ++ 0#52, signR := sgn,
      expR := BitVec.allOnes _, manR := 0 }

/-- R117, opcode table row ENCODE.class.NAN: with a nonzero fraction it completes from every state, every payload giving
NAN_MANTISSA. -/
def Obligations.NanRowCompletes : Prop :=
  ∀ (sgn : Bit) (frac : BitVec 52) (s : State), frac ≠ 0 →
    exec (.encodeClassNan sgn frac) s = .next { s with
      phaseR := .done, waitR := 0, valueR := sgn ++ BitVec.allOnes 11 ++ frac, signR := sgn,
      expR := BitVec.allOnes _, manR := s.inst.nanMantissa }

/-- R130, opcode table row ENCODE.class.FINITE: under the row's condition it completes from every state, with `Encode` of the word its
operands stand for. -/
def Obligations.FiniteRowCompletes : Prop :=
  ∀ (sgn : Bit) (bexp : BitVec 11) (frac : BitVec 52) (s : State), bexp ≠ 2047 → ¬ (bexp = 0 ∧ frac = 0) →
    exec (.encodeClassFinite sgn bexp frac) s = .next { s with
      phaseR := .done, waitR := 0, valueR := sgn ++ bexp ++ frac,
      signR := (encodeValue s.inst (sgn ++ bexp ++ frac)).sign,
      expR := (encodeValue s.inst (sgn ++ bexp ++ frac)).exp,
      manR := (encodeValue s.inst (sgn ++ bexp ++ frac)).man }

/-- The model's choice of log entry 13: a class row's term is refused exactly where it stands for no word of its row. -/
def Obligations.ClassRowRefusesExactlyIllFormedTerms : Prop :=
  ∀ (i : Instr) (s : State), (∃ r, exec i s = .refused r) ↔ i.wellFormed = false

/-- R56, R71: the class row of a word reads a term from it, and that term's meaning is the meaning of ENCODE of the word. -/
def Obligations.ClassRowsAgreeWithEncode : Prop :=
  ∀ (w : Word) (s : State), ∃ i : Instr,
    decodeRow (classRow w) w = some i ∧ rowOf i ≠ .encode ∧ exec i s = exec (.encode w) s

/-- R14, R56: the edge that ends BUSY runs the decoded request word; what the step adds is that the edge's inputs are used up and the cycle
number advances. -/
def Obligations.StepRunsTheDecodedRequest : Prop :=
  ∀ (s : State) (i : Instr), s.sampled.rst = false → s.phaseR = .busy → s.waitR = 0 →
    decodeVector 64 s.valueR = .ok i →
    i.wellFormed = true ∧
    step s = exec i { s with inputs := s.inputs.tail, edge := s.edge + 1 }

/-- Log entry 10: `withFetchWord` makes the very next step run the instruction of those bits. -/
def Obligations.FetchWordRunsNext : Prop :=
  ∀ (s : State) (nbits w : Nat) (i : Instr), decodeTableWord nbits w = some i →
    step (s.withFetchWord nbits w) = exec i { s.withFetchWord nbits w with inputs := s.inputs, edge := s.edge + 1 }

/-! ## Encodings -/

/-- R56, R58: every 64-bit word decodes to ENCODE with that word as operand; a vector of any other width is refused by name. -/
def Obligations.EveryWordDecodesToEncode : Prop :=
  (∀ w : Word, decodeVector 64 w = .ok (.encode w) ∧ decodeTableWord 64 w.toNat = some (.encode w)) ∧
  (∀ (n : Nat) (v : BitVec n), n ≠ 64 → decodeVector n v = .error (.notOneRequestWord n))

/-- Opcode table, all rows: a row reads a term from a word exactly when the term is well formed, belongs to the row and encodes to the
word. Decoding and encoding are inverse, and no bit is dropped. -/
def Obligations.RowsDecodeAndEncodeAgree : Prop :=
  ∀ (r : TableRow) (i : Instr) (w : Word),
    decodeRow r w = some i ↔ (i.wellFormed = true ∧ rowOf i = r ∧ encode i = w)

/-- R71, R56: the four class rows are disjoint and cover all words; the row that covers a word is the one `Classify` names; the ENCODE row
covers every word. -/
def Obligations.ClassRowsPartitionTheWords : Prop :=
  ∀ w : Word, TableRow.encode.covers w = true ∧
    (TableRow.classZero.covers w = true ↔ classify w = .zero) ∧
    (TableRow.classInf.covers w = true ↔ classify w = .inf) ∧
    (TableRow.classNan.covers w = true ↔ classify w = .nan) ∧
    (TableRow.classFinite.covers w = true ↔ classify w = .finite)

/-- A few words written out bit by bit from R50's pattern, and what they decode to. -/
def Obligations.WrittenOutWordsDecode : Prop :=
  decode 0b0100000000101010110000000000000000000000000000000000000000000000#64 = .encode 0x402AC00000000000#64 ∧
  decodeRow .classZero 0b1000000000000000000000000000000000000000000000000000000000000000#64 = some (.encodeClassZero 1) ∧
  decodeRow .classInf 0b0111111111110000000000000000000000000000000000000000000000000000#64 = some (.encodeClassInf 0) ∧
  decodeRow .classNan 0b1111111111110000000000000000000000000000000000000000000000000001#64 =
    some (.encodeClassNan 1 1) ∧
  decodeRow .classFinite 0b0100000000101010110000000000000000000000000000000000000000000000#64 =
    some (.encodeClassFinite 0 1026 0xAC00000000000)

/-! ## sign_exponent_calculator and mantissa_normalizer -/

/-- R51, R72, R73 (from general knowledge, as R51 says): what a request word denotes, class by class: a finite word its magnitude
`S0 * 2^(e0 - 52)` with its sign, a zero or an infinity that with its sign, negative zero included. -/
def Obligations.MagnitudeIsWhatTheWordDenotes : Prop :=
  (∀ w : FiniteWord, wordReading w.1 = .number (signFactor (signOf w.1) * magnitude w) ∧ 0 < magnitude w) ∧
  (∀ w : Word, (classify w = .nan ↔ wordReading w = .nan) ∧
    (classify w = .inf ↔ wordReading w = .infinity (signOf w)) ∧
    (classify w = .zero ↔ wordReading w = .zero (signOf w)))

/-- R74: `e` is the one integer with `magnitude = m * 2^e` for some `1 <= m < 2`, that `m` is `S / 2^52`, and `-1074 <= e <= 1023`. -/
def Obligations.TrueExponentIsTheUniqueOne : Prop :=
  ∀ w : FiniteWord,
    (∀ (e : Int) (m : ℚ), (1 ≤ m ∧ m < 2 ∧ magnitude w = m * (2 : ℚ) ^ e) ↔
      (e = trueExponent w ∧ m = (significand w : ℚ) / 2 ^ 52)) ∧
    -1074 ≤ trueExponent w ∧ trueExponent w ≤ 1023

/-- R90: `S = S0 * 2^lz` has bit 52 set and no bit above it, `magnitude = (S / 2^52) * 2^e`, and `S = S0` for a host-normal word. -/
def Obligations.SignificandIsNormalised : Prop :=
  ∀ w : FiniteWord,
    significand w = rawSignificand w * 2 ^ leadingZeros w ∧ 2 ^ 52 ≤ significand w ∧ significand w < 2 ^ 53 ∧
    magnitude w = (significand w : ℚ) / 2 ^ 52 * (2 : ℚ) ^ trueExponent w ∧
    (inE w.1 ≠ 0 → leadingZeros w = 0 ∧ significand w = rawSignificand w)

/-- R76 (the spec derives it): the document's normalising loop ends, after at most 1074 rounds of each loop, with the pair of R74. -/
def Obligations.NormalisingLoopFindsTheExponent : Prop :=
  ∀ (w : FiniteWord) (fuel : Nat), 1074 ≤ fuel →
    normaliseLoop fuel (magnitude w) = ((significand w : ℚ) / 2 ^ 52, trueExponent w)

/-- R92's closed form (the spec derives it): `ExtractBits(q, n) = bits_n(floor(q * 2^n))`, and the number fits. -/
def Obligations.RepeatedDoublingIsFloor : Prop :=
  ∀ (n : Nat) (q : ℚ), 0 ≤ q → q < 1 → (extractBits n q).toNat = ⌊q * 2 ^ n⌋₊

/-- R93, R94: the two mantissa fields are the repeated doubling of `f = m - 1` and of `g = m / 2^sh`. -/
def Obligations.MantissaFieldsAreRepeatedDoubling : Prop :=
  ∀ M S : Nat, 2 ^ 52 ≤ S → S < 2 ^ 53 →
    mantissaNormal M S = extractBits M ((S : ℚ) / 2 ^ 52 - 1) ∧
    ∀ sh : Nat, 1 ≤ sh → mantissaSubnormal M S sh = extractBits M ((S : ℚ) / 2 ^ 52 / 2 ^ sh)

/-- R97 (the spec derives it), its five properties (a) to (e). -/
def Obligations.MantissaNormalizerProperties : Prop :=
  (∀ M S S' : Nat, 2 ^ 52 ≤ S → S ≤ S' → S' < 2 ^ 53 →
    (mantissaNormal M S).toNat ≤ (mantissaNormal M S').toNat ∧
    ∀ sh, 1 ≤ sh → (mantissaSubnormal M S sh).toNat ≤ (mantissaSubnormal M S' sh).toNat) ∧
  (∀ M S sh sh' : Nat, 2 ^ 52 ≤ S → S < 2 ^ 53 → 1 ≤ sh → sh ≤ sh' →
    (mantissaSubnormal M S sh').toNat ≤ (mantissaSubnormal M S sh).toNat) ∧
  (∀ M S sh : Nat, 2 ^ 52 ≤ S → S < 2 ^ 53 → 1 ≤ sh → (mantissaSubnormal M S sh = 0 ↔ M < sh)) ∧
  (∀ M S S' : Nat, 52 ≤ M → 2 ^ 52 ≤ S → S < 2 ^ 53 → 2 ^ 52 ≤ S' → S' < 2 ^ 53 →
    mantissaNormal M S = mantissaNormal M S' → S = S') ∧
  (∀ M S sh : Nat, 2 ^ 52 ≤ S → S < 2 ^ 53 → 1 ≤ sh → 52 + sh ≤ M →
    (mantissaSubnormal M S sh).toNat = S * 2 ^ (M - 52 - sh))

/-- R76, R92, R130: the document's algorithm, its loops taken literally over exact rationals, gives the same Representation as the
block, for every instance and every word. The fuel of its normalising loop, 1074 rounds for each of the two loops, is log entry 17. -/
def Obligations.DocumentAlgorithmAgrees : Prop :=
  ∀ (I : Instance) (w : Word), documentEncode I w = encodeValue I w

/-! ## biased_exponent_assembler -/

/-- R111: the three ranges, disjoint and covering every integer. -/
def Obligations.RangesAreDisjointAndCover : Prop :=
  ∀ (L : Layout) (be : Int), L.Valid →
    (rangeOf L be = .subnormal ↔ be ≤ 0) ∧
    (rangeOf L be = .overflow ↔ 2 ^ L.expBits ≤ be) ∧
    (rangeOf L be = .normal ↔ 1 ≤ be ∧ be ≤ 2 ^ L.expBits - 1)

/-- R116 (the spec derives it): a finite word with `be = 2^E - 1` takes the normal branch and gets an all-ones exponent field with its own
mantissa bits; these are the words with `2^(2^E - 1 - bias) <= magnitude < 2^(2^E - bias)`. -/
def Obligations.AllOnesExponentFromFiniteWord : Prop :=
  ∀ (I : Instance) (w : FiniteWord),
    (biased I.layout (trueExponent w) = 2 ^ I.layout.expBits - 1 →
      encodeValue I w.1 = { sign := signOf w.1, exp := BitVec.allOnes _, man := mantissaNormal _ (significand w) }) ∧
    (biased I.layout (trueExponent w) = 2 ^ I.layout.expBits - 1 ↔
      (2 : ℚ) ^ ((2 : Int) ^ I.layout.expBits - 1 - I.layout.effBias) ≤ magnitude w ∧
      magnitude w < (2 : ℚ) ^ ((2 : Int) ^ I.layout.expBits - I.layout.effBias))

/-- R138: a finite word whose true exponent plus bias exceeds `2^E - 1` gets the infinity pattern with its sign; at `2^E - 1` itself the
normal branch applies, with an all-ones exponent field. -/
def Obligations.OverflowBoundary : Prop :=
  ∀ (I : Instance) (w : FiniteWord),
    (2 ^ I.layout.expBits - 1 < trueExponent w + I.layout.effBias →
      encodeValue I w.1 = { sign := signOf w.1, exp := BitVec.allOnes _, man := 0 }) ∧
    (trueExponent w + I.layout.effBias = 2 ^ I.layout.expBits - 1 →
      encodeValue I w.1 = { sign := signOf w.1, exp := BitVec.allOnes _, man := mantissaNormal _ (significand w) })

/-- R139: for a nonzero finite magnitude, below the smallest normal `2^(1 - bias)` exactly when `be <= 0`, exactly when the exponent field is
all zero (the sign kept); zero gives an all-zero exponent field as well. -/
def Obligations.UnderflowBoundary : Prop :=
  (∀ (I : Instance) (w : FiniteWord),
    (magnitude w < (2 : ℚ) ^ (1 - I.layout.effBias) ↔ trueExponent w + I.layout.effBias ≤ 0) ∧
    (trueExponent w + I.layout.effBias ≤ 0 ↔ ((encodeValue I w.1).sign = signOf w.1 ∧ (encodeValue I w.1).exp = 0))) ∧
  (∀ (I : Instance) (w : Word), classify w = .zero → (encodeValue I w).exp = 0)

/-- R135 (the stronger form is the spec's own inference): the sign field is bit 63 of the word, and flipping that bit complements the sign
field and leaves the other two alone, for every word of every class. -/
def Obligations.SignFidelity : Prop :=
  ∀ (I : Instance) (w : Word),
    (encodeValue I w).sign = w.extractLsb' 63 1 ∧
    encodeValue I (w ^^^ 0x8000000000000000#64) =
      { sign := ~~~ (encodeValue I w).sign, exp := (encodeValue I w).exp, man := (encodeValue I w).man }

/-- R137 (across ranges by the spec's own inference): a larger finite magnitude never gets a smaller exponent field. -/
def Obligations.ExponentFieldIsMonotone : Prop :=
  ∀ (I : Instance) (w1 w2 : FiniteWord), magnitude w1 ≤ magnitude w2 →
    (encodeValue I w1.1).exp.toNat ≤ (encodeValue I w2.1).exp.toNat

/-- R134, R95 (the spec's own inference): read back by the standard rules, a normal result below the all-ones exponent, or a subnormal
result, never exceeds the magnitude and is less than one unit in the last place below it. -/
def Obligations.TruncationErrorBound : Prop :=
  ∀ (I : Instance) (w : FiniteWord) (be : Int), be = trueExponent w + I.layout.effBias →
    (1 ≤ be → be ≤ 2 ^ I.layout.expBits - 2 → ∃ q : ℚ,
      readFields (encodeValue I w.1) = .number (signFactor (signOf w.1) * q) ∧
      0 ≤ magnitude w - q ∧ magnitude w - q < (2 : ℚ) ^ (trueExponent w - (I.layout.manBits : Int))) ∧
    (be ≤ 0 → ∃ q : ℚ,
      readFields (encodeValue I w.1) = (if q = 0 then .zero (signOf w.1) else .number (signFactor (signOf w.1) * q)) ∧
      0 ≤ magnitude w - q ∧ magnitude w - q < (2 : ℚ) ^ (1 - I.layout.effBias - (I.layout.manBits : Int)))

/-- R134 (its "exactly" is the spec's own inference): on every instance with `M >= 6` and `1 <= 3 + bias <= 2^E - 2` the Representation of
13.375 reads back as 13.375 exactly. -/
def Obligations.ThirteenPoint375ReadsBackExactly : Prop :=
  ∀ I : Instance, 6 ≤ I.layout.manBits → 1 ≤ 3 + I.layout.effBias → 3 + I.layout.effBias ≤ 2 ^ I.layout.expBits - 2 →
    readFields (encodeValue I 0x402AC00000000000#64) = .number (107 / 8)

/-- R143 (the spec derives it): on a Layout with the widths and the bias of `double`, the preset among them, every word that is no NaN
encodes to itself; a NaN gives its sign, an all-ones
exponent and NAN_MANTISSA. -/
def Obligations.DoubleEncodesEveryWordToItself : Prop :=
  ∀ (I : Instance) (w : Word), I.layout.expBits = 11 → I.layout.manBits = 52 → I.layout.effBias = 1023 →
    (classify w ≠ .nan → (assemble (encodeValue I w)).toNat = w.toNat) ∧
    (classify w = .nan → (assemble (encodeValue I w)).toNat =
      (w.extractLsb' 63 1).toNat * 2 ^ 63 + 2047 * 2 ^ 52 + I.nanMantissa.toNat)

/-- R117, conflict C8: every NaN of one sign gives the same fields, with a nonzero mantissa field when `M >= 1`; when `M = 0` a NaN encodes
exactly like an infinity of its sign. -/
def Obligations.NanPayloadIsIgnored : Prop :=
  ∀ (I : Instance) (w : Word), classify w = .nan →
    (∀ w' : Word, classify w' = .nan → signOf w' = signOf w → encodeValue I w' = encodeValue I w) ∧
    (1 ≤ I.layout.manBits → (encodeValue I w).man ≠ 0) ∧
    (I.layout.manBits = 0 → ∀ w' : Word, classify w' = .inf → signOf w' = signOf w → encodeValue I w' = encodeValue I w)

/-- R118, R53: the canonical bit string as a number, and its three fields at their positions. -/
def Obligations.AssembleConcatenatesTheFields : Prop :=
  ∀ (L : Layout) (f : Fields L),
    (assemble f).toNat = f.sign.toNat * 2 ^ (L.expBits + L.manBits) + f.exp.toNat * 2 ^ L.manBits + f.man.toNat ∧
    (assemble f).extractLsb' (L.expBits + L.manBits) 1 = f.sign ∧
    (assemble f).extractLsb' L.manBits L.expBits = f.exp ∧
    (assemble f).extractLsb' 0 L.manBits = f.man

/-- R119: the container word of a valid Layout is the canonical string under `T - W` zero bits: the same number, the string in its low `W`
bits; with no explicit total, or one equal to `W`, the container is the string. -/
def Obligations.ContainerPadsTheMostSignificantEnd : Prop :=
  ∀ (L : Layout) (bits : BitVec L.W), L.Valid →
    L.W ≤ L.T ∧ (container L bits).toNat = bits.toNat ∧ (container L bits).extractLsb' 0 L.W = bits ∧
    (L.totalExplicit = false ∨ L.totalBits = 1 + L.expBits + L.manBits → L.T = L.W)

/-- R120, R140 (the round trip is the spec's own inference): the view is the string with `H - W < 4` zero bits on the right; dropping them
gives the string back; digit `k` is four bits of it from the left. -/
def Obligations.HexViewPadsTheLeastSignificantEnd : Prop :=
  ∀ (L : Layout) (bits : BitVec L.W),
    L.W ≤ L.H ∧ L.H - L.W < 4 ∧ 4 ∣ L.H ∧
    (hexView L bits).toNat = bits.toNat * 2 ^ (L.H - L.W) ∧
    (hexView L bits).extractLsb' (L.H - L.W) L.W = bits ∧
    ∀ k, k < L.H / 4 → (hexDigit L (hexView L bits) k).toNat = bits.toNat * 2 ^ (L.H - L.W) / 16 ^ (L.H / 4 - 1 - k) % 16

/-- R141 (the reading of "structurally consistent" is the spec's own inference): a shorter mantissa field is the left end of a longer one;
and 13.375 on `{exponent_bits=6, mantissa_bits=12}` is the 19-bit string `0 100010 101011000000`. -/
def Obligations.ShorterMantissaIsAPrefix : Prop :=
  (∀ M M' S : Nat, 2 ^ 52 ≤ S → S < 2 ^ 53 → M ≤ M' →
    mantissaNormal M S = (mantissaNormal M' S).extractLsb' (M' - M) M) ∧
  (∀ I : Instance, I.layout = Layout.custom 6 12 →
    I.layout.W = 19 ∧ (assemble (encodeValue I 0x402AC00000000000#64)).toNat = 0b0100010101011000000)

/-! ## Elaboration -/

/-- R150, R151: a parameter record is refused exactly when it is not valid, with the lowest reason that holds and the offending values; no
other property of the record is a cause. -/
def Obligations.InvalidLayoutIsRefusedByItsLowestReason : Prop :=
  ∀ (r : RawLayout) (nan : Option Nat),
    (r.expBits < 1 → elaborate r nan = .refused (.invalidLayout .expBitsTooSmall r)) ∧
    (1 ≤ r.expBits → r.manBits < 0 → elaborate r nan = .refused (.invalidLayout .manBitsNegative r)) ∧
    (1 ≤ r.expBits → 0 ≤ r.manBits → r.totalExplicit = true → r.totalBits < 1 + r.expBits + r.manBits →
      elaborate r nan = .refused (.invalidLayout .totalBitsTooSmall r)) ∧
    (1 ≤ r.expBits → 0 ≤ r.manBits → (r.totalExplicit = true → 1 + r.expBits + r.manBits ≤ r.totalBits) →
      ∀ reason, elaborate r nan ≠ .refused (.invalidLayout reason r))

/-- R5, R7, R173: a valid record elaborates to an IDLE state of an instance with exactly that Layout: with the default NAN_MANTISSA where
none is given, with the given number where R7 allows it. That any other number is refused, by this name, is the model's choice (log
entry 15). -/
def Obligations.ValidLayoutElaborates : Prop :=
  ∀ r : RawLayout, 1 ≤ r.expBits → 0 ≤ r.manBits →
    (r.totalExplicit = true → 1 + r.expBits + r.manBits ≤ r.totalBits) →
    (∃ s : State, elaborate r none = .next s ∧ s.inst.layout = r.toLayout ∧
      s.inst.nanMantissa = BitVec.ofNat _ (2 ^ (s.inst.layout.manBits - 1)) ∧ s.phaseR = .idle) ∧
    (∀ x : Nat, x < 2 ^ r.manBits.toNat → (r.manBits = 0 ∨ x ≠ 0) →
      ∃ s : State, elaborate r (some x) = .next s ∧ s.inst.layout = r.toLayout ∧
        s.inst.nanMantissa.toNat = x ∧ s.phaseR = .idle) ∧
    (∀ x : Nat, ¬ (x < 2 ^ r.manBits.toNat ∧ (r.manBits = 0 ∨ x ≠ 0)) →
      elaborate r (some x) = .refused (.nanMantissaNotAllowed x))

/-- R6: the derived constants of the five presets, bias, `W`, `T` and `H`. -/
def Obligations.PresetConstants : Prop :=
  (Layout.half.effBias = 15 ∧ Layout.half.W = 16 ∧ Layout.half.T = 16 ∧ Layout.half.H = 16) ∧
  (Layout.single.effBias = 127 ∧ Layout.single.W = 32 ∧ Layout.single.T = 32 ∧ Layout.single.H = 32) ∧
  (Layout.double.effBias = 1023 ∧ Layout.double.W = 64 ∧ Layout.double.T = 64 ∧ Layout.double.H = 64) ∧
  (Layout.quadruple.effBias = 16383 ∧ Layout.quadruple.W = 128 ∧ Layout.quadruple.T = 128 ∧ Layout.quadruple.H = 128) ∧
  (Layout.octuple.effBias = 262143 ∧ Layout.octuple.W = 256 ∧ Layout.octuple.T = 256 ∧ Layout.octuple.H = 256)

/-! ## The history of transfers -/

/-- R37, R171, R183 as a step lemma: every edge, a reset edge included, keeps what `HistoryInv` says of the transfers since the last
reset and the registers, with the history that the edge leaves. -/
def Obligations.StepKeepsTheHistoryInvariant : Prop :=
  ∀ (s t : State) (h : History), s.HistoryInv h → step s = .next t → t.HistoryInv (s.record h)

/-- With no transfer recorded the history invariant holds of every IDLE state, the state right after reset of every instance among
them. -/
def Obligations.HistoryInvariantAtIdle : Prop :=
  (∀ s : State, s.phaseR = .idle → s.HistoryInv History.empty) ∧
  ∀ I : Instance, (State.afterReset I).HistoryInv History.empty
end

