-- ==== Sys2Proof/Laws/Arith.lean ====
section
/-! SUPPORT. The arithmetic primitives of R8. -/

namespace Sys2Proof.Machine

theorem shift_of_nonneg (x : Nat) (k : Int) (h : 0 ≤ k) : shift x k = x * 2 ^ k.toNat := by
  simp [shift, h]

theorem shift_of_neg (x : Nat) (k : Int) (h : k < 0) : shift x k = x / 2 ^ (-k).toNat := by
  simp [shift, Int.not_le.mpr h]

/-- A shift by the difference of two naturals is a multiplication and then a truncating division. -/
theorem shift_sub (x a b : Nat) : shift x ((a : Int) - (b : Int)) = x * 2 ^ a / 2 ^ b := by
  rcases Nat.le_total b a with h | h
  · obtain ⟨c, rfl⟩ := Nat.exists_eq_add_of_le h
    rw [shift_of_nonneg _ _ (by omega), show ((b + c : Nat) : Int) - (b : Int) = (c : Int) by omega, Int.toNat_natCast,
      Nat.pow_add, Nat.mul_comm (2 ^ b), ← Nat.mul_assoc, Nat.mul_div_cancel _ (Nat.two_pow_pos b)]
  · obtain ⟨c, rfl⟩ := Nat.exists_eq_add_of_le h
    rcases Nat.eq_zero_or_pos c with rfl | hc
    · rw [shift_of_nonneg _ _ (by omega), show ((a : Int) - ((a + 0 : Nat) : Int)) = 0 by omega]
      simp [Nat.mul_div_cancel _ (Nat.two_pow_pos a)]
    · rw [shift_of_neg _ _ (by omega), show (-((a : Int) - ((a + c : Nat) : Int))) = (c : Int) by omega,
        Int.toNat_natCast, Nat.pow_add, Nat.mul_comm x, Nat.mul_div_mul_left _ _ (Nat.two_pow_pos a)]

/-- `lzc53` counts exactly the doublings that bring a number below `2^53` to bit 52. -/
theorem lzc53_spec (x : Nat) (h0 : 0 < x) (h1 : x < 2 ^ 53) :
    2 ^ 52 ≤ x * 2 ^ lzc53 x ∧ x * 2 ^ lzc53 x < 2 ^ 53 ∧ lzc53 x ≤ 52 := by
  have hne : x ≠ 0 := by omega
  have hlo : 2 ^ Nat.log2 x ≤ x := Nat.log2_self_le hne
  have hhi : x < 2 ^ (Nat.log2 x + 1) := Nat.lt_log2_self
  have hl : Nat.log2 x ≤ 52 := by
    have : Nat.log2 x < 53 := (Nat.log2_lt hne).mpr h1
    omega
  have hs : Nat.log2 x + (52 - Nat.log2 x) = 52 := by omega
  refine ⟨?_, ?_, Nat.sub_le _ _⟩
  · calc 2 ^ 52 = 2 ^ Nat.log2 x * 2 ^ (52 - Nat.log2 x) := by rw [← Nat.pow_add, hs]
      _ ≤ x * 2 ^ (52 - Nat.log2 x) := Nat.mul_le_mul_right _ hlo
  · calc x * 2 ^ (52 - Nat.log2 x) < 2 ^ (Nat.log2 x + 1) * 2 ^ (52 - Nat.log2 x) :=
        Nat.mul_lt_mul_of_pos_right hhi (Nat.two_pow_pos _)
      _ = 2 ^ 53 := by rw [← Nat.pow_add]; congr 1; omega

end Sys2Proof.Machine
end

