-- ==== Sys2Proof/Laws/Decode.lean ====
section
/-! SUPPORT. The request word and its three fields determine each other. -/

namespace Sys2Proof

/-- The bits of an assembled request word: fraction, exponent field, sign, from bit 0 up (R50). -/
theorem getLsbD_requestWord (s : Bit) (e : BitVec 11) (f : BitVec 52) (i : Nat) :
    (requestWord s e f).getLsbD i =
      if i < 52 then f.getLsbD i else if i - 52 < 11 then e.getLsbD (i - 52) else s.getLsbD (i - 52 - 11) := by
  have h1 : (requestWord s e f).getLsbD i = ((s ++ e) ++ f).getLsbD i := rfl
  rw [h1, BitVec.getLsbD_append, BitVec.getLsbD_append]

theorem reqSign_requestWord (s : Bit) (e : BitVec 11) (f : BitVec 52) : reqSign (requestWord s e f) = s := by
  apply BitVec.eq_of_getLsbD_eq
  intro i hi
  obtain rfl : i = 0 := by omega
  simp only [reqSign, BitVec.getLsbD_extractLsb', getLsbD_requestWord]
  simp

theorem reqExp_requestWord (s : Bit) (e : BitVec 11) (f : BitVec 52) : reqExp (requestWord s e f) = e := by
  apply BitVec.eq_of_getLsbD_eq
  intro i hi
  simp only [reqExp, BitVec.getLsbD_extractLsb', getLsbD_requestWord]
  simp [hi]

theorem reqFrac_requestWord (s : Bit) (e : BitVec 11) (f : BitVec 52) : reqFrac (requestWord s e f) = f := by
  apply BitVec.eq_of_getLsbD_eq
  intro i hi
  simp only [reqFrac, BitVec.getLsbD_extractLsb', getLsbD_requestWord]
  simp [hi]

/-- A word is the word of its own fields. -/
theorem requestWord_fields (w : Word) : requestWord (reqSign w) (reqExp w) (reqFrac w) = w := by
  apply BitVec.eq_of_getLsbD_eq
  intro i hi
  simp only [getLsbD_requestWord, reqSign, reqExp, reqFrac, BitVec.getLsbD_extractLsb']
  by_cases h1 : i < 52
  · simp [h1]
  · by_cases h2 : i - 52 < 11
    · simp [h1, h2, show 52 + (i - 52) = i by omega]
    · obtain rfl : i = 63 := by omega
      simp

/-- Two assembled words are equal exactly when their fields are. -/
theorem requestWord_inj {s s' : Bit} {e e' : BitVec 11} {f f' : BitVec 52} :
    requestWord s e f = requestWord s' e' f' ↔ s = s' ∧ e = e' ∧ f = f' := by
  constructor
  · intro h
    exact ⟨by rw [← reqSign_requestWord s e f, h, reqSign_requestWord],
      by rw [← reqExp_requestWord s e f, h, reqExp_requestWord],
      by rw [← reqFrac_requestWord s e f, h, reqFrac_requestWord]⟩
  · rintro ⟨rfl, rfl, rfl⟩
    rfl

/-- Masking works field by field. -/
theorem requestWord_and (s s' : Bit) (e e' : BitVec 11) (f f' : BitVec 52) :
    requestWord s e f &&& requestWord s' e' f' = requestWord (s &&& s') (e &&& e') (f &&& f') := by
  apply BitVec.eq_of_getLsbD_eq
  intro i hi
  simp only [BitVec.getLsbD_and, getLsbD_requestWord]
  split
  · rfl
  · split <;> rfl

/-! ### What each row of the opcode table covers -/

/-- The ENCODE row covers every word (R56). -/
@[simp] theorem covers_encode (w : Word) : TableRow.encode.covers w = true := by
  simp [TableRow.covers, TableRow.mask, TableRow.pattern, TableRow.condition]

/-- A masked word against a pattern, for a mask that leaves the sign out. -/
theorem masked_eq_iff (w : Word) (e e' : BitVec 11) (f f' : BitVec 52) :
    w &&& requestWord 0 e f = requestWord 0 e' f' ↔ reqExp w &&& e = e' ∧ reqFrac w &&& f = f' := by
  conv_lhs => rw [← requestWord_fields w, requestWord_and, requestWord_inj]
  simp

theorem covers_classZero (w : Word) : TableRow.classZero.covers w = true ↔ reqExp w = 0 ∧ reqFrac w = 0 := by
  have h := masked_eq_iff w (BitVec.allOnes 11) 0 (BitVec.allOnes 52) 0
  rw [BitVec.and_allOnes, BitVec.and_allOnes] at h
  rw [← h]
  simp only [TableRow.covers, TableRow.condition, Bool.and_true, beq_iff_eq]
  exact Iff.rfl

theorem covers_classInf (w : Word) : TableRow.classInf.covers w = true ↔ reqExp w = 2047 ∧ reqFrac w = 0 := by
  have h := masked_eq_iff w (BitVec.allOnes 11) 2047 (BitVec.allOnes 52) 0
  rw [BitVec.and_allOnes, BitVec.and_allOnes] at h
  rw [← h]
  simp only [TableRow.covers, TableRow.condition, Bool.and_true, beq_iff_eq]
  exact Iff.rfl

theorem covers_classNan (w : Word) : TableRow.classNan.covers w = true ↔ reqExp w = 2047 ∧ reqFrac w ≠ 0 := by
  have h := masked_eq_iff w (BitVec.allOnes 11) 2047 0 0
  rw [BitVec.and_allOnes] at h
  have h0 : reqFrac w &&& 0 = 0 := BitVec.and_zero
  simp only [h0, and_true] at h
  rw [← h]
  simp only [TableRow.covers, TableRow.condition, Bool.and_eq_true, beq_iff_eq, bne_iff_ne]
  exact Iff.rfl

theorem covers_classFinite (w : Word) :
    TableRow.classFinite.covers w = true ↔ reqExp w ≠ 2047 ∧ ¬ (reqExp w = 0 ∧ reqFrac w = 0) := by
  simp only [TableRow.covers, TableRow.mask, TableRow.pattern, TableRow.condition, BitVec.and_zero, beq_self_eq_true,
    Bool.true_and, Bool.and_eq_true, bne_iff_ne, Bool.not_eq_true', Bool.and_eq_false_iff, beq_eq_false_iff_ne,
    ne_eq, not_and_or]

end Sys2Proof
end

