-- ==== Sys2Proof/Laws/Encode.lean ====
section
/-! SUPPORT. The classes of R71 as conditions on the fields, the bounds of R72, and `Encode` (R130) class by class. -/

namespace Sys2Proof.Machine

theorem inE_lt (w : Word) : inE w < 2048 := (reqExp w).isLt

theorem inF_lt (w : Word) : inF w < 2 ^ 52 := (reqFrac w).isLt

/-- `in_E` against a constant is the exponent field against it. -/
theorem inE_eq_iff (w : Word) (n : Nat) (h : n < 2048) : inE w = n ↔ reqExp w = BitVec.ofNat 11 n := by
  rw [inE, ← BitVec.toNat_inj, BitVec.toNat_ofNat, Nat.mod_eq_of_lt h]

/-- `in_F = 0` is a zero fraction field. -/
theorem inF_eq_zero_iff (w : Word) : inF w = 0 ↔ reqFrac w = 0 := by
  rw [inF, ← BitVec.toNat_inj]
  rfl

theorem classify_nan_iff (w : Word) : classify w = .nan ↔ inE w = 2047 ∧ inF w ≠ 0 := by
  unfold classify
  constructor
  · intro h
    split at h
    · assumption
    · split at h <;> try contradiction
      split at h <;> contradiction
  · intro h
    rw [if_pos h]

theorem classify_inf_iff (w : Word) : classify w = .inf ↔ inE w = 2047 ∧ inF w = 0 := by
  unfold classify
  by_cases h1 : inE w = 2047 <;> by_cases h2 : inF w = 0 <;> by_cases h3 : inE w = 0 <;> simp_all

theorem classify_zero_iff (w : Word) : classify w = .zero ↔ inE w = 0 ∧ inF w = 0 := by
  unfold classify
  by_cases h1 : inE w = 2047 <;> by_cases h2 : inF w = 0 <;> by_cases h3 : inE w = 0 <;> simp_all

theorem classify_finite_iff (w : Word) : classify w = .finite ↔ inE w ≠ 2047 ∧ ¬ (inE w = 0 ∧ inF w = 0) := by
  unfold classify
  by_cases h1 : inE w = 2047 <;> by_cases h2 : inF w = 0 <;> by_cases h3 : inE w = 0 <;> simp_all

/-- The raw significand of a FINITE word is positive and below `2^53` (R72). -/
theorem rawSignificand_bounds (w : FiniteWord) : 0 < rawSignificand w ∧ rawSignificand w < 2 ^ 53 := by
  have hf := (classify_finite_iff w.1).mp w.2
  have hF := inF_lt w.1
  unfold rawSignificand
  split <;> omega

/-! ### `Encode` class by class (R130) -/

theorem encodeValue_of_nan (I : Instance) (w : Word) (h : classify w = .nan) :
    encodeValue I w = nanFields I (signOf w) := by
  unfold encodeValue
  split <;> simp_all

theorem encodeValue_of_inf (I : Instance) (w : Word) (h : classify w = .inf) :
    encodeValue I w = infFields I.layout (signOf w) := by
  unfold encodeValue
  split <;> simp_all

theorem encodeValue_of_zero (I : Instance) (w : Word) (h : classify w = .zero) :
    encodeValue I w = zeroFields I.layout (signOf w) := by
  unfold encodeValue
  split <;> simp_all

theorem encodeValue_of_finite (I : Instance) (w : FiniteWord) : encodeValue I w.1 = finiteFields I.layout w := by
  unfold encodeValue
  split <;> simp_all [w.2]

end Sys2Proof.Machine
end

