-- ==== Sys2Proof/Laws/Mantissa.lean ====
section
/-! SUPPORT. The mantissa fields as numbers (R93, R94), and the ranges of a biased exponent by case (R111). -/

namespace Sys2Proof.Machine

/-- R93 as a number: the fraction scaled to `M` bits, truncated. -/
theorem mantissaNormal_toNat (M S : Nat) (h1 : 2 ^ 52 ≤ S) (h2 : S < 2 ^ 53) :
    (mantissaNormal M S).toNat = fraction S * 2 ^ M / 2 ^ 52 := by
  have hshift := shift_sub (fraction S) M 52
  have hlt : fraction S < 2 ^ 52 := by unfold fraction; omega
  unfold mantissaNormal bitsN
  generalize fraction S = T at hlt hshift ⊢
  simp only [Nat.cast_ofNat] at hshift
  rw [hshift]
  simp only [BitVec.toNat_ofNat]
  exact Nat.mod_eq_of_lt (Nat.div_lt_of_lt_mul (Nat.mul_lt_mul_of_pos_right hlt (Nat.two_pow_pos M)))

/-- R94 as a number: the whole significand scaled to `M` bits and shifted right, truncated. -/
theorem mantissaSubnormal_toNat (M S sh : Nat) (h1 : S < 2 ^ 53) (h2 : 1 ≤ sh) :
    (mantissaSubnormal M S sh).toNat = S * 2 ^ M / 2 ^ (52 + sh) := by
  have hshift := shift_sub S M (52 + sh)
  have hlt : S < 2 ^ (52 + sh) := lt_of_lt_of_le h1 (Nat.pow_le_pow_right (by omega) (by omega))
  unfold mantissaSubnormal bitsN
  rw [show (M : Int) - 52 - (sh : Int) = (M : Int) - ((52 + sh : Nat) : Int) by push_cast; ring, hshift]
  simp only [BitVec.toNat_ofNat]
  exact Nat.mod_eq_of_lt (Nat.div_lt_of_lt_mul (Nat.mul_lt_mul_of_pos_right hlt (Nat.two_pow_pos M)))

/-- Every biased exponent falls in one of the three ranges, with that range's bounds. -/
theorem rangeOf_cases (L : Layout) (be : Int) :
    (be ≤ 0 ∧ rangeOf L be = .subnormal) ∨
    (1 ≤ be ∧ 2 ^ L.expBits ≤ be ∧ rangeOf L be = .overflow) ∨
    (1 ≤ be ∧ be < 2 ^ L.expBits ∧ rangeOf L be = .normal) := by
  unfold rangeOf
  by_cases h : be ≤ 0
  · exact .inl ⟨h, if_pos h⟩
  · by_cases h2 : 2 ^ L.expBits ≤ be
    · exact .inr (.inl ⟨by omega, h2, by rw [if_neg h, if_pos h2]⟩)
    · exact .inr (.inr ⟨by omega, by omega, by rw [if_neg h, if_neg h2]⟩)

/-- An exponent field of a valid Layout has at least two values. -/
theorem two_le_pow_expBits (I : Instance) : (2 : Int) ≤ 2 ^ I.layout.expBits := by
  have h : 2 ^ 1 ≤ 2 ^ I.layout.expBits := Nat.pow_le_pow_right (by omega) I.layoutValid.1
  exact_mod_cast h

end Sys2Proof.Machine
end

