-- ==== Sys2Proof/Laws/State.lean ====
section
/-! SUPPORT. One lemma per field per update of State, so that no later proof unfolds a record update. -/

namespace Sys2Proof.Machine

/-! ### `tick` -/

@[simp] theorem State.tick_inst (s : State) : s.tick.inst = s.inst := rfl
@[simp] theorem State.tick_phaseR (s : State) : s.tick.phaseR = s.phaseR := rfl
@[simp] theorem State.tick_waitR (s : State) : s.tick.waitR = s.waitR := rfl
@[simp] theorem State.tick_valueR (s : State) : s.tick.valueR = s.valueR := rfl
@[simp] theorem State.tick_signR (s : State) : s.tick.signR = s.signR := rfl
@[simp] theorem State.tick_expR (s : State) : s.tick.expR = s.expR := rfl
@[simp] theorem State.tick_manR (s : State) : s.tick.manR = s.manR := rfl
@[simp] theorem State.tick_inputs (s : State) : s.tick.inputs = s.inputs.tail := rfl
@[simp] theorem State.tick_edge (s : State) : s.tick.edge = s.edge + 1 := rfl

/-! ### `resetEdge` -/

@[simp] theorem State.resetEdge_inst (s : State) : s.resetEdge.inst = s.inst := rfl
@[simp] theorem State.resetEdge_phaseR (s : State) : s.resetEdge.phaseR = .idle := rfl
@[simp] theorem State.resetEdge_waitR (s : State) : s.resetEdge.waitR = s.waitR := rfl
@[simp] theorem State.resetEdge_valueR (s : State) : s.resetEdge.valueR = s.valueR := rfl
@[simp] theorem State.resetEdge_signR (s : State) : s.resetEdge.signR = s.signR := rfl
@[simp] theorem State.resetEdge_expR (s : State) : s.resetEdge.expR = s.expR := rfl
@[simp] theorem State.resetEdge_manR (s : State) : s.resetEdge.manR = s.manR := rfl
@[simp] theorem State.resetEdge_inputs (s : State) : s.resetEdge.inputs = s.inputs := rfl
@[simp] theorem State.resetEdge_edge (s : State) : s.resetEdge.edge = s.edge := rfl

/-! ### `countDown` -/

@[simp] theorem State.countDown_inst (s : State) : s.countDown.inst = s.inst := rfl
@[simp] theorem State.countDown_phaseR (s : State) : s.countDown.phaseR = s.phaseR := rfl
@[simp] theorem State.countDown_waitR (s : State) : s.countDown.waitR = s.waitR - 1 := rfl
@[simp] theorem State.countDown_valueR (s : State) : s.countDown.valueR = s.valueR := rfl
@[simp] theorem State.countDown_signR (s : State) : s.countDown.signR = s.signR := rfl
@[simp] theorem State.countDown_expR (s : State) : s.countDown.expR = s.expR := rfl
@[simp] theorem State.countDown_manR (s : State) : s.countDown.manR = s.manR := rfl
@[simp] theorem State.countDown_inputs (s : State) : s.countDown.inputs = s.inputs := rfl
@[simp] theorem State.countDown_edge (s : State) : s.countDown.edge = s.edge := rfl

/-! ### `deliver` -/

@[simp] theorem State.deliver_inst (s : State) : s.deliver.inst = s.inst := rfl
@[simp] theorem State.deliver_phaseR (s : State) : s.deliver.phaseR = .idle := rfl
@[simp] theorem State.deliver_waitR (s : State) : s.deliver.waitR = s.waitR := rfl
@[simp] theorem State.deliver_valueR (s : State) : s.deliver.valueR = s.valueR := rfl
@[simp] theorem State.deliver_signR (s : State) : s.deliver.signR = s.signR := rfl
@[simp] theorem State.deliver_expR (s : State) : s.deliver.expR = s.expR := rfl
@[simp] theorem State.deliver_manR (s : State) : s.deliver.manR = s.manR := rfl
@[simp] theorem State.deliver_inputs (s : State) : s.deliver.inputs = s.inputs := rfl
@[simp] theorem State.deliver_edge (s : State) : s.deliver.edge = s.edge := rfl

/-! ### `complete` -/

@[simp] theorem State.complete_inst (s : State) (w : Word) (f : Fields s.inst.layout) : (s.complete w f).inst = s.inst := rfl
@[simp] theorem State.complete_phaseR (s : State) (w : Word) (f : Fields s.inst.layout) : (s.complete w f).phaseR = .done := rfl
@[simp] theorem State.complete_waitR (s : State) (w : Word) (f : Fields s.inst.layout) : (s.complete w f).waitR = 0 := rfl
@[simp] theorem State.complete_valueR (s : State) (w : Word) (f : Fields s.inst.layout) : (s.complete w f).valueR = w := rfl
@[simp] theorem State.complete_signR (s : State) (w : Word) (f : Fields s.inst.layout) : (s.complete w f).signR = f.sign := rfl
@[simp] theorem State.complete_expR (s : State) (w : Word) (f : Fields s.inst.layout) : (s.complete w f).expR = f.exp := rfl
@[simp] theorem State.complete_manR (s : State) (w : Word) (f : Fields s.inst.layout) : (s.complete w f).manR = f.man := rfl
@[simp] theorem State.complete_inputs (s : State) (w : Word) (f : Fields s.inst.layout) : (s.complete w f).inputs = s.inputs := rfl
@[simp] theorem State.complete_edge (s : State) (w : Word) (f : Fields s.inst.layout) : (s.complete w f).edge = s.edge := rfl

/-! ### `withFetchWord` -/

@[simp] theorem State.withFetchWord_inst (s : State) (n w : Nat) : (s.withFetchWord n w).inst = s.inst := rfl
@[simp] theorem State.withFetchWord_phaseR (s : State) (n w : Nat) : (s.withFetchWord n w).phaseR = .busy := rfl
@[simp] theorem State.withFetchWord_waitR (s : State) (n w : Nat) : (s.withFetchWord n w).waitR = 0 := rfl
@[simp] theorem State.withFetchWord_valueR (s : State) (n w : Nat) : (s.withFetchWord n w).valueR = BitVec.ofNat 64 (w % 2 ^ n) := rfl
@[simp] theorem State.withFetchWord_signR (s : State) (n w : Nat) : (s.withFetchWord n w).signR = s.signR := rfl
@[simp] theorem State.withFetchWord_expR (s : State) (n w : Nat) : (s.withFetchWord n w).expR = s.expR := rfl
@[simp] theorem State.withFetchWord_manR (s : State) (n w : Nat) : (s.withFetchWord n w).manR = s.manR := rfl
@[simp] theorem State.withFetchWord_inputs (s : State) (n w : Nat) : (s.withFetchWord n w).inputs = EdgeInputs.quiet :: s.inputs := rfl
@[simp] theorem State.withFetchWord_edge (s : State) (n w : Nat) : (s.withFetchWord n w).edge = s.edge := rfl

/-! ### `ticks` -/

@[simp] theorem State.ticks_inst (s : State) (k : Nat) : (s.ticks k).inst = s.inst := rfl
@[simp] theorem State.ticks_phaseR (s : State) (k : Nat) : (s.ticks k).phaseR = s.phaseR := rfl
@[simp] theorem State.ticks_waitR (s : State) (k : Nat) : (s.ticks k).waitR = s.waitR := rfl
@[simp] theorem State.ticks_valueR (s : State) (k : Nat) : (s.ticks k).valueR = s.valueR := rfl
@[simp] theorem State.ticks_signR (s : State) (k : Nat) : (s.ticks k).signR = s.signR := rfl
@[simp] theorem State.ticks_expR (s : State) (k : Nat) : (s.ticks k).expR = s.expR := rfl
@[simp] theorem State.ticks_manR (s : State) (k : Nat) : (s.ticks k).manR = s.manR := rfl
@[simp] theorem State.ticks_inputs (s : State) (k : Nat) : (s.ticks k).inputs = s.inputs.drop k := rfl
@[simp] theorem State.ticks_edge (s : State) (k : Nat) : (s.ticks k).edge = s.edge + k := rfl

/-! ### `hold` -/

@[simp] theorem State.hold_eq (s : State) : s.hold = s := rfl

/-! ### `accept` -/

/-- Accept with an offer latches it. -/
theorem State.accept_of_offer (s : State) (h : s.sampled.reqValid = true) :
    s.accept = { s with
      valueR := s.sampled.reqValue, waitR := latency s.edge s.inst.layout s.sampled.reqValue - 1, phaseR := .busy } := by
  simp [State.accept, h]

/-- Accept without an offer changes nothing. -/
theorem State.accept_of_none (s : State) (h : s.sampled.reqValid = false) : s.accept = s := by
  simp [State.accept, h]

@[simp] theorem State.accept_inst (s : State) : s.accept.inst = s.inst := by
  unfold State.accept; split <;> rfl

@[simp] theorem State.accept_inputs (s : State) : s.accept.inputs = s.inputs := by
  unfold State.accept; split <;> rfl

@[simp] theorem State.accept_edge (s : State) : s.accept.edge = s.edge := by
  unfold State.accept; split <;> rfl

/-! ### `afterReset` -/

@[simp] theorem State.afterReset_inst (I : Instance) : (State.afterReset I).inst = I := rfl
@[simp] theorem State.afterReset_phaseR (I : Instance) : (State.afterReset I).phaseR = .idle := rfl
@[simp] theorem State.afterReset_waitR (I : Instance) : (State.afterReset I).waitR = 0 := rfl
@[simp] theorem State.afterReset_valueR (I : Instance) : (State.afterReset I).valueR = 0 := rfl
@[simp] theorem State.afterReset_signR (I : Instance) : (State.afterReset I).signR = 0 := rfl
@[simp] theorem State.afterReset_expR (I : Instance) : (State.afterReset I).expR = 0 := rfl
@[simp] theorem State.afterReset_manR (I : Instance) : (State.afterReset I).manR = 0 := rfl
@[simp] theorem State.afterReset_inputs (I : Instance) : (State.afterReset I).inputs = [] := rfl
@[simp] theorem State.afterReset_edge (I : Instance) : (State.afterReset I).edge = 0 := rfl

/-! ### The sampled inputs -/

@[simp] theorem State.sampledAt_zero (s : State) : s.sampledAt 0 = s.sampled := rfl

/-- After one edge the host's list has moved by one. -/
@[simp] theorem State.tick_sampledAt (s : State) (j : Nat) : s.tick.sampledAt j = s.sampledAt (j + 1) := by
  simp [State.sampledAt]

@[simp] theorem State.resetEdge_sampledAt (s : State) (j : Nat) : s.resetEdge.sampledAt j = s.sampledAt j := rfl
@[simp] theorem State.countDown_sampledAt (s : State) (j : Nat) : s.countDown.sampledAt j = s.sampledAt j := rfl
@[simp] theorem State.deliver_sampledAt (s : State) (j : Nat) : s.deliver.sampledAt j = s.sampledAt j := rfl
@[simp] theorem State.complete_sampledAt (s : State) (w : Word) (f : Fields s.inst.layout) (j : Nat) : (s.complete w f).sampledAt j = s.sampledAt j := rfl

@[simp] theorem State.accept_sampledAt (s : State) (j : Nat) : s.accept.sampledAt j = s.sampledAt j := by
  simp [State.sampledAt]

@[simp] theorem State.withFetchWord_sampled (s : State) (n w : Nat) :
    (s.withFetchWord n w).sampled = EdgeInputs.quiet := rfl

@[simp] theorem EdgeInputs.quiet_rst : EdgeInputs.quiet.rst = false := rfl

/-- `k + 1` ticks are one tick and then `k`. -/
theorem State.tick_ticks (s : State) (k : Nat) : s.tick.ticks k = s.ticks (k + 1) := by
  simp [State.tick, State.ticks, Nat.add_assoc, Nat.add_comm 1 k]

end Sys2Proof.Machine
end

