-- ==== Sys2Proof/Laws/Ops.lean ====
section
/-! SUPPORT. What one step, one run and each transfer can do, said once. -/

namespace Sys2Proof.Machine

/-- LATENCY is at least 1 (R7). -/
theorem one_le_latency (edge : Nat) (L : Layout) (w : Word) : 1 ≤ latency edge L w := Nat.le_add_left 1 _

/-- The instruction in flight is ENCODE of the held word. -/
@[simp] theorem State.fetched_eq (s : State) : s.fetched = .encode s.valueR := rfl

/-- Everything one step can do, guards included: the six cases of R12. -/
theorem step_cases {s t : State} (h : step s = .next t) :
    (s.sampled.rst = true ∧ t = s.resetEdge.tick) ∨
    (s.sampled.rst = false ∧ s.phaseR = .idle ∧ t = s.accept.tick) ∨
    (s.sampled.rst = false ∧ s.phaseR = .busy ∧ 0 < s.waitR ∧ t = s.countDown.tick) ∨
    (s.sampled.rst = false ∧ s.phaseR = .busy ∧ s.waitR = 0 ∧
      t = (s.complete s.valueR (encodeValue s.inst s.valueR)).tick) ∨
    (s.sampled.rst = false ∧ s.phaseR = .done ∧ s.sampled.rspReady = true ∧ t = s.deliver.tick) ∨
    (s.sampled.rst = false ∧ s.phaseR = .done ∧ s.sampled.rspReady = false ∧ t = s.tick) := by
  unfold step at h
  cases hr : s.sampled.rst <;> simp only [hr, if_true, Bool.false_eq_true, if_false] at h
  · cases hp : s.phaseR <;> simp only [hp] at h
    · exact .inr (.inl ⟨rfl, rfl, (Host.Outcome.next.inj h).symm⟩)
    · split at h
      · rename_i hw
        exact .inr (.inr (.inl ⟨rfl, rfl, hw, (Host.Outcome.next.inj h).symm⟩))
      · rename_i hw
        exact .inr (.inr (.inr (.inl ⟨rfl, rfl, by omega, (Host.Outcome.next.inj h).symm⟩)))
    · cases hy : s.sampled.rspReady <;> simp only [hy, if_true, Bool.false_eq_true, if_false] at h
      · exact .inr (.inr (.inr (.inr (.inr ⟨rfl, rfl, rfl, (Host.Outcome.next.inj h).symm⟩))))
      · exact .inr (.inr (.inr (.inr (.inl ⟨rfl, rfl, rfl, (Host.Outcome.next.inj h).symm⟩))))
  · exact .inl ⟨rfl, (Host.Outcome.next.inj h).symm⟩

/-- A step answers a next state. -/
theorem step_answers (s : State) : ∃ t, step s = .next t := by
  unfold step
  cases s.sampled.rst <;> cases s.phaseR <;> simp only [if_true, Bool.false_eq_true, if_false]
  · exact ⟨_, rfl⟩
  · split <;> exact ⟨_, rfl⟩
  · split <;> exact ⟨_, rfl⟩
  all_goals exact ⟨_, rfl⟩

/-! ### The step by case, for running it forward -/

theorem step_of_reset (s : State) (h : s.sampled.rst = true) : step s = .next s.resetEdge.tick := by
  simp [step, h]

theorem step_of_idle (s : State) (h : s.sampled.rst = false) (hp : s.phaseR = .idle) :
    step s = .next s.accept.tick := by
  simp [step, h, hp]

theorem step_of_wait (s : State) (h : s.sampled.rst = false) (hp : s.phaseR = .busy) (hw : 0 < s.waitR) :
    step s = .next s.countDown.tick := by
  simp [step, h, hp, hw]

theorem step_of_result (s : State) (h : s.sampled.rst = false) (hp : s.phaseR = .busy) (hw : s.waitR = 0) :
    step s = .next (s.complete s.valueR (encodeValue s.inst s.valueR)).tick := by
  simp only [step, h, hp, hw, Bool.false_eq_true, if_false, Nat.lt_irrefl]
  rfl

theorem step_of_done (s : State) (h : s.sampled.rst = false) (hp : s.phaseR = .done) :
    step s = if s.sampled.rspReady then .next s.deliver.tick else .next s.tick := by
  simp [step, h, hp]

/-! ### Runs -/

@[simp] theorem run_zero (s : State) : run 0 s = .next s := rfl

/-- One edge more at the front of a run. -/
theorem run_succ (k : Nat) {s t : State} (h : step s = .next t) : run (k + 1) s = run k t := by
  have hs : Sys2Proof.core.step s = .next t := h
  simp only [run, Host.Core.run, hs]
  rfl

/-- A run in two parts. -/
theorem run_add (j k : Nat) {s t : State} (h : run j s = .next t) : run (j + k) s = run k t := by
  induction j generalizing s with
  | zero => simp only [run_zero, Host.Outcome.next.injEq] at h; simp [h]
  | succ j ih =>
    obtain ⟨u, hu⟩ := step_answers s
    rw [run_succ j hu] at h
    rw [Nat.succ_add, run_succ (j + k) hu, ih h]

/-! ### Observation -/

@[simp] theorem observe_zero (s : State) (h : History) : observe 0 s h = some (s, h) := rfl

theorem observe_succ (k : Nat) {s t : State} (h : History) (hs : step s = .next t) :
    observe (k + 1) s h = observe k t (s.record h) := by
  simp [observe, hs]

/-- A reset edge starts the history anew. -/
theorem record_of_reset (s : State) (h : History) (hr : s.sampled.rst = true) : s.record h = History.empty := by
  simp [State.record, hr]

/-- An edge without reset appends what it transfers. -/
theorem record_of_edge (s : State) (h : History) (hr : s.sampled.rst = false) :
    s.record h = { requests := h.requests ++ s.requestTransfer.toList,
                   responses := h.responses ++ (s.responseTransfer.map (Observed.mk s.inst.layout)).toList } := by
  simp [State.record, hr]

@[simp] theorem views_zero (s : State) : views 0 s = [] := rfl

theorem views_succ (k : Nat) {s t : State} (hs : step s = .next t) : views (k + 1) s = s.view :: views k t := by
  simp [views, hs]

/-- A request transfer, guards included. -/
theorem requestTransfer_some {s : State} {w : Word} (h : s.requestTransfer = some w) :
    s.sampled.rst = false ∧ s.phaseR = .idle ∧ s.sampled.reqValid = true ∧ s.sampled.reqValue = w := by
  simp only [State.requestTransfer, State.reqReady, Option.ite_none_right_eq_some, Bool.and_eq_true, Bool.not_eq_true',
    beq_iff_eq, Option.some.injEq] at h
  exact ⟨h.1.1.1, h.1.2, h.1.1.2, h.2⟩

/-- In DONE the data outputs are those of the result registers. -/
theorem dataOut_of_done (s : State) (h : s.phaseR = .done) : s.dataOut = responseOf s.result s.valueR := by
  simp [State.dataOut, h]

end Sys2Proof.Machine
end

