-- ==== Sys2Proof/Laws/PerInstr.lean ====
section
/-! SUPPORT. Statements for all instructions, one lemma per constructor. -/

namespace Sys2Proof.Laws

/-- Family EncodesInRow: a term's word has its row's fixed bits: `encode i & mask = match`. -/
def EncodesInRow.Statement (i : Instr) : Prop := encode i &&& (rowOf i).mask = (rowOf i).pattern

theorem EncodesInRow.encode (w : Word) : EncodesInRow.Statement (.encode w) := by
  simp [EncodesInRow.Statement, rowOf, TableRow.mask, TableRow.pattern]

theorem EncodesInRow.encodeClassZero (sgn : Bit) : EncodesInRow.Statement (.encodeClassZero sgn) := by
  revert sgn; unfold EncodesInRow.Statement; decide

theorem EncodesInRow.encodeClassInf (sgn : Bit) : EncodesInRow.Statement (.encodeClassInf sgn) := by
  revert sgn; unfold EncodesInRow.Statement; decide

theorem EncodesInRow.encodeClassNan (sgn : Bit) (frac : BitVec 52) :
    EncodesInRow.Statement (.encodeClassNan sgn frac) := by
  show requestWord sgn 2047#11 frac &&& 0x7FF0000000000000#64 = 0x7FF0000000000000#64
  apply BitVec.eq_of_getLsbD_eq
  intro i hi
  simp only [BitVec.getLsbD_and, getLsbD_requestWord]
  by_cases h1 : i < 52
  · have hm : (0x7FF0000000000000#64).getLsbD i = false := by
      rw [show (0x7FF0000000000000#64) = (2047#64) <<< 52 by decide, BitVec.getLsbD_shiftLeft]
      simp [h1]
    simp [hm]
  · obtain ⟨j, rfl⟩ := Nat.exists_eq_add_of_le (Nat.le_of_not_lt h1)
    have hj : j < 12 := by omega
    interval_cases j <;> simp

theorem EncodesInRow.encodeClassFinite (sgn : Bit) (bexp : BitVec 11) (frac : BitVec 52) :
    EncodesInRow.Statement (.encodeClassFinite sgn bexp frac) := by
  simp [EncodesInRow.Statement, rowOf, TableRow.mask, TableRow.pattern]

end Sys2Proof.Laws
end

