-- ==== Sys2Proof/Tests/Slice0.lean ====
section
/-! SUPPORT. Tests with expected values from spec/95_test_vectors.md and the rules' examples, the smoke tests of WellFormed, the decoding of words
written out from the spec's patterns, and for each statement a witness that its hypotheses can be met. -/

namespace Sys2Proof.Tests

open Sys2Proof.Machine

/-! ### Small instances and states -/

def halfInst : Instance :=
  { layout := Layout.half, nanMantissa := Layout.half.defaultNan, layoutValid := by decide,
    nanAllowed := Layout.half.defaultNan_allowed }

def customInst : Instance :=
  { layout := Layout.custom 6 12, nanMantissa := (Layout.custom 6 12).defaultNan, layoutValid := by decide,
    nanAllowed := (Layout.custom 6 12).defaultNan_allowed }

/-- `{exponent_bits=1, mantissa_bits=0}` of 95_test_vectors.md 2.7. -/
def tinyInst : Instance :=
  { layout := Layout.custom 1 0, nanMantissa := (Layout.custom 1 0).defaultNan, layoutValid := by decide,
    nanAllowed := (Layout.custom 1 0).defaultNan_allowed }

/-- A `half` state with these control registers, this held word and these coming inputs. -/
def st (ph : Phase) (wt : Nat) (v : Word) (ins : List EdgeInputs) : State :=
  { State.afterReset halfInst with phaseR := ph, waitR := wt, valueR := v, inputs := ins }

def reset : EdgeInputs := { rst := true, reqValid := true, reqValue := 0x3FB999999999999A, rspReady := true }
def offer (w : Word) : EdgeInputs := { rst := false, reqValid := true, reqValue := w, rspReady := false }
def take : EdgeInputs := { rst := false, reqValid := true, reqValue := 0, rspReady := true }

/-- The canonical bit string ENCODE leaves in the registers, as a number. -/
def bitsAfter (i : Instr) (s : State) : Option Nat :=
  match exec i s with
  | .next t => some (assemble t.result).toNat
  | .fault _ => none
  | .refused _ => none

/-- One step, seen through a function of the state it answers. -/
def after {α : Type} (s : State) (f : State → α) : Option α :=
  match step s with
  | .next t => some (f t)
  | .fault _ => none
  | .refused _ => none

/-! ### WellFormed smoke: the ill-formed terms are refused by the check -/

theorem test_wf_nan_needs_fraction : (Instr.encodeClassNan 1 0).wellFormed = false := by decide
theorem test_wf_finite_not_all_ones : (Instr.encodeClassFinite 0 2047 5).wellFormed = false := by decide
theorem test_wf_finite_not_zero : (Instr.encodeClassFinite 1 0 0).wellFormed = false := by decide
theorem test_wf_finite_subnormal : (Instr.encodeClassFinite 0 0 1).wellFormed = true := by decide

/-! ### Decoding, words written out from the patterns of R50 and the opcode table -/

/-- 13.375: sign 0, exponent field 10000000010, fraction 101011 and 46 zeros (95_test_vectors.md 2.1). -/
theorem test_decode_encode :
    decode 0b0100000000101010110000000000000000000000000000000000000000000000#64 = .encode 0x402AC00000000000#64 := by
  decide

theorem test_row_zero :
    decodeRow .classZero 0b1000000000000000000000000000000000000000000000000000000000000000#64 =
      some (.encodeClassZero 1) := by decide

theorem test_row_inf :
    decodeRow .classInf 0b1111111111110000000000000000000000000000000000000000000000000000#64 =
      some (.encodeClassInf 1) := by decide

/-- The words of the NAN row with a zero fraction belong to INF. -/
theorem test_row_nan_excludes_inf :
    decodeRow .classNan 0b0111111111110000000000000000000000000000000000000000000000000000#64 = none := by decide

theorem test_row_nan :
    decodeRow .classNan 0b0111111111110000000000000000000000000000000000000000000000000001#64 =
      some (.encodeClassNan 0 1) := by decide

/-- The smallest host subnormal is FINITE (R71). -/
theorem test_row_finite :
    decodeRow .classFinite 0b0000000000000000000000000000000000000000000000000000000000000001#64 =
      some (.encodeClassFinite 0 0 1) := by decide

theorem test_row_finite_excludes_zero : decodeRow .classFinite 0x8000000000000000#64 = none := by decide

theorem test_decode_table_word : decodeTableWord 64 0x7FF0000000000001 = some (.encode 0x7FF0000000000001#64) := by
  decide

theorem test_decode_other_width : decodeVector 32 0#32 = .error (.notOneRequestWord 32) := rfl

/-! ### ENCODE (95_test_vectors.md, sections 2.1 to 2.8) -/

/-- 65520 on `half`: truncated, where nearest-even would round up (2.2). -/
theorem test_encode_truncates : bitsAfter (.encode 0x40EFFE0000000000#64) (st .idle 0 0 []) = some 0x7BFF := by decide

/-- 1.75 * 2^-16 on `half`: the whole significand is shifted (2.2). -/
theorem test_encode_subnormal : bitsAfter (.encode 0x3EFC000000000000#64) (st .idle 0 0 []) = some 0x01C0 := by decide

theorem test_class_zero : bitsAfter (.encodeClassZero 1) (st .idle 0 0 []) = some 0x8000 := by decide

theorem test_class_inf : bitsAfter (.encodeClassInf 1) (st .idle 0 0 []) = some 0xFC00 := by decide

/-- The payload is ignored and the sign copied (2.2). -/
theorem test_class_nan : bitsAfter (.encodeClassNan 1 1) (st .idle 0 0 []) = some 0xFE00 := by decide

/-- 98304 on `half`, `be = 2^E - 1`: the normal branch with an all-ones exponent (2.2). -/
theorem test_class_finite :
    bitsAfter (.encodeClassFinite 0 0x40F#11 0x8000000000000#52) (st .idle 0 0 []) = some 0x7E00 := by decide

/-- 5e-324 on `half`: host-subnormal, `lz = 52`, flush (2.2). -/
theorem test_class_finite_flush : bitsAfter (.encodeClassFinite 0 0 1) (st .idle 0 0 []) = some 0 := by decide +kernel

/-- 13.375 on `{6, 12}`: the hexadecimal view pads on the right: digits 4 5 5 8 0 (2.1). -/
theorem test_hex_view :
    hexDigits (Layout.custom 6 12)
      (hexView (Layout.custom 6 12) (assemble (encodeValue customInst 0x402AC00000000000#64))) = [4, 5, 5, 8, 0] := by
  decide

/-- `{1, 0}`: a NaN encodes like an infinity (2.7, conflict C8). -/
theorem test_tiny_nan : (assemble (encodeValue tinyInst 0xFFF8000000000000#64)).toNat = 3 := by decide

/-- The subnormal mantissa of 2.9: `S = 0x116C262777579C`, `sh = 7`, `M = 23`. -/
theorem test_mantissa_subnormal : mantissaSubnormal 23 0x116C262777579C 7 = 0b00000010001011011000010#23 := by decide

/-- A Layout that fails two checks is refused with the lowest code (2.10). -/
theorem test_invalid_layout :
    (match elaborate ⟨0, 10, false, 0, true, 8⟩ none with
     | .refused (.invalidLayout reason _) => some reason.code
     | _ => none) = some 1 := by decide

/-! ### One edge each (95_test_vectors.md 2.11) -/

/-- P4: the reset edge at which 0.1 is offered drops the request and takes nothing. -/
theorem test_edge_reset :
    after (st .busy 2 0x3FF0000000000000 [reset]) (fun t => (t.phaseR, t.valueR)) = some (.idle, 0x3FF0000000000000) := by
  decide

/-- BUSY with `wait_r = 2` counts down and ignores the offer. -/
theorem test_edge_wait :
    after (st .busy 2 5 [offer 7]) (fun t => (t.phaseR, t.waitR, t.valueR)) = some (.busy, 1, 5) := by decide

/-- BUSY with `wait_r = 0` writes the result of 0.1 and enters DONE. -/
theorem test_edge_result :
    after (st .busy 0 0x3FB999999999999A [offer 7]) (fun t => (t.phaseR, (assemble t.result).toNat)) =
      some (.done, 0x2E66) := by decide

/-- DONE with `rsp_ready = 1` and an offer: IDLE, the offer not taken. -/
theorem test_edge_deliver :
    after (st .done 0 5 [take]) (fun t => (t.phaseR, t.valueR)) = some (.idle, 5) := by decide

/-- The first step after reset with the request in flight runs ENCODE of it. -/
theorem test_fetch_word :
    after (State.reset.withFetchWord 64 0x402AC00000000000) (fun t => (assemble t.result).toNat) =
      some 0x402AC00000000000 := by decide

/-! ### Witnesses: the hypotheses of each statement can be met -/

theorem witness_ResetEdgeWritesOnlyThePhase : (st .done 0 5 [reset]).sampled.rst = true := by decide

theorem witness_AcceptLatchesTheOfferedWord :
    ((st .idle 0 0 [offer 5]).sampled.rst = false ∧ (st .idle 0 0 [offer 5]).phaseR = .idle ∧
      (st .idle 0 0 [offer 5]).sampled.reqValid = true) ∧
    ((st .idle 0 0 []).sampled.rst = false ∧ (st .idle 0 0 []).phaseR = .idle ∧
      (st .idle 0 0 []).sampled.reqValid = false) := by decide

theorem witness_ComputeCountsDownThenWritesTheResult :
    ((st .busy 1 5 []).sampled.rst = false ∧ (st .busy 1 5 []).phaseR = .busy ∧ 0 < (st .busy 1 5 []).waitR) ∧
    ((st .busy 0 5 []).sampled.rst = false ∧ (st .busy 0 5 []).phaseR = .busy ∧ (st .busy 0 5 []).waitR = 0) := by
  decide

theorem witness_DeliverReturnsToIdle :
    (st .done 0 5 [take]).sampled.rst = false ∧ (st .done 0 5 [take]).phaseR = .done ∧
      (st .done 0 5 [take]).sampled.rspReady = true := by decide

theorem witness_HoldChangesNoRegister :
    (st .done 0 5 [offer 7, offer 8]).phaseR = .done ∧
    ∀ j, j < 2 → ((st .done 0 5 [offer 7, offer 8]).sampledAt j).rst = false ∧
      ((st .done 0 5 [offer 7, offer 8]).sampledAt j).rspReady = false := by decide

theorem witness_HandshakeOutputsFollowThePhase :
    ∃ t, (st .busy 3 5 [reset]).sampled.rst = true ∧ step (st .busy 3 5 [reset]) = .next t := ⟨_, by decide, rfl⟩

theorem witness_DataOutputsInDone : (st .done 0 5 []).phaseR = .done := by decide

/-- A DONE state that meets the invariant, with a step out of it. -/
theorem witness_StepKeepsTheResultInvariant :
    ∃ s t, s.phaseR = .done ∧ s.Inv ∧ step s = .next t :=
  ⟨(st .idle 0 0 []).complete 5 (encodeValue halfInst 5), _, rfl, fun _ => rfl, rfl⟩

theorem witness_OnlyItsRuleWritesARegister :
    (∃ t, step (st .busy 3 5 []) = .next t ∧
      ¬ ((st .busy 3 5 []).sampled.rst = false ∧ (st .busy 3 5 []).phaseR = .busy ∧ (st .busy 3 5 []).waitR = 0)) ∧
    (∃ t, step (st .busy 0 5 [offer 7]) = .next t ∧ (st .busy 0 5 [offer 7]).requestTransfer = none) :=
  ⟨⟨_, rfl, by decide⟩, ⟨_, rfl, by decide⟩⟩

theorem witness_PhaseGoesRoundOneWay :
    (∃ t, step (st .idle 0 0 [offer 5]) = .next t ∧ (st .idle 0 0 [offer 5]).phaseR ≠ .busy ∧ t.phaseR = .busy) ∧
    (∃ t, step (st .busy 0 5 []) = .next t ∧ (st .busy 0 5 []).phaseR ≠ .done ∧ t.phaseR = .done) ∧
    (∃ t, step (st .done 0 5 [take]) = .next t ∧ (st .done 0 5 [take]).phaseR ≠ .idle ∧ t.phaseR = .idle) :=
  ⟨⟨_, rfl, by decide, rfl⟩, ⟨_, rfl, by decide, rfl⟩, ⟨_, rfl, by decide, rfl⟩⟩

theorem witness_ParametersNeverChange : ∃ t, run 2 (st .done 0 5 [take, offer 6]) = .next t := ⟨_, rfl⟩

/-- Past its one offer the host of this state is quiet, so no reset comes at any edge. -/
theorem witness_EncodeFromTransferToDone :
    (st .idle 0 0 [offer 5]).requestTransfer = some 5 ∧ ∀ k, (st .idle 0 0 [offer 5]).noReset k := by
  refine ⟨by decide, fun k j _ => ?_⟩
  rcases j with _ | j
  · rfl
  · simp [State.sampledAt, st]

/-- A host that holds `rsp_ready` low for one edge in DONE and then raises it. -/
theorem witness_AcceptedRequestIsAnswered (n : Nat) :
    let s := st .idle 0 0 (offer 5 :: (List.replicate (n + 1) EdgeInputs.quiet ++ [take]))
    s.requestTransfer = some 5 ∧ s.noReset (n + 1 + 2) ∧
    (∀ j, n + 1 ≤ j → j < n + 1 + 1 → (s.sampledAt j).rspReady = false) ∧ (s.sampledAt (n + 1 + 1)).rspReady = true := by
  have hq : ∀ j, j < n + 1 →
      ((st .idle 0 0 (offer 5 :: (List.replicate (n + 1) EdgeInputs.quiet ++ [take]))).sampledAt (j + 1)) =
        EdgeInputs.quiet := by
    intro j hj
    simp only [State.sampledAt, st, List.drop_succ_cons]
    rw [List.drop_append_of_le_length (by simp; omega), List.drop_replicate]
    obtain ⟨m, hm⟩ := Nat.exists_eq_add_of_lt hj
    rw [show n + 1 - j = m + 1 by omega]
    rfl
  have ht : ((st .idle 0 0 (offer 5 :: (List.replicate (n + 1) EdgeInputs.quiet ++ [take]))).sampledAt (n + 1 + 1)) =
      take := by
    simp [State.sampledAt, st]
  refine ⟨rfl, fun j hj => ?_, fun j h1 h2 => ?_, by rw [ht]; rfl⟩
  · rcases j with _ | j
    · rfl
    · rcases Nat.lt_or_ge j (n + 1) with h | h
      · rw [hq j h]
        rfl
      · obtain rfl : j = n + 1 := by omega
        rw [ht]
        rfl
  · obtain rfl : j = n + 1 := by omega
    rw [hq n (by omega)]
    rfl

theorem witness_ResponsesMatchRequestsInOrder : (st .idle 0 0 [offer 5, take, reset]).phaseR = .idle := by decide

theorem witness_StaleRegistersAreNeverSeen : (st .idle 9 9 []).phaseR = .idle ∧ (st .busy 9 9 []).phaseR = .busy := by
  decide

theorem witness_ResetDropsTheRequestInFlight :
    (st .done 0 5 [reset]).sampled.rst = true ∧
    ∀ j, 1 ≤ j → j ≤ 3 → ((st .done 0 5 [reset]).sampledAt j).reqValid = false := by decide

/-- One word for each clause, the ranges at their boundaries: NaN, infinity, zero, and on `half` `be = 0` (2^-15), `be = 32` (131072),
`be = 1` (2^-14) and `be = 31` (65536), each with its significand. -/
theorem witness_EncodeFollowsTheWholeFunction :
    (inE 0x7FF0000000000001 = 2047 ∧ inF 0x7FF0000000000001 ≠ 0) ∧
    (inE 0xFFF0000000000000 = 2047 ∧ inF 0xFFF0000000000000 = 0) ∧
    (inE 0x8000000000000000 = 0 ∧ inF 0x8000000000000000 = 0) ∧
    (∀ p ∈ [((0x3F00000000000000 : Word), (0 : Int)), (0x4100000000000000, 32), (0x3F10000000000000, 1),
        (0x40F0000000000000, 31)],
      inE p.1 ≠ 2047 ∧ inE p.1 ≠ 0 ∧ 2 ^ 52 ≤ (2 ^ 52 + inF p.1) * 2 ^ 0 ∧ (2 ^ 52 + inF p.1) * 2 ^ 0 < 2 ^ 53 ∧
      p.2 = (inE p.1 : Int) - 1023 - ((0 : Nat) : Int) + halfInst.layout.effBias) := by decide

theorem witness_NanRowCompletes : (1 : BitVec 52) ≠ 0 := by decide

theorem witness_FiniteRowCompletes : (0 : BitVec 11) ≠ 2047 ∧ ¬ ((0 : BitVec 11) = 0 ∧ (1 : BitVec 52) = 0) := by decide

theorem witness_StepRunsTheDecodedRequest :
    (st .busy 0 5 []).sampled.rst = false ∧ (st .busy 0 5 []).phaseR = .busy ∧ (st .busy 0 5 []).waitR = 0 ∧
      decodeVector 64 (st .busy 0 5 []).valueR = .ok (.encode 5) := ⟨rfl, rfl, rfl, rfl⟩

theorem witness_FetchWordRunsNext : decodeTableWord 64 5 = some (.encode 5) := by decide

theorem witness_EveryWordDecodesToEncode : (63 : Nat) ≠ 64 := by decide

/-- The FINITE words the statements about finite words range over: the smallest and the largest. -/
theorem witness_FiniteWord : classify 0x0000000000000001 = .finite ∧ classify 0x7FEFFFFFFFFFFFFF = .finite := by decide

/-- R51: the two zeros differ in their sign, and a host-subnormal word is a number. -/
theorem test_reading_zeros :
    wordReading 0x8000000000000000 = .zero 1 ∧ wordReading 0 = .zero 0 ∧
      wordReading 0x8000000000000001 = .number (-1 * (1 * (2 : ℚ) ^ (-1074 : Int))) := by
  refine ⟨rfl, rfl, ?_⟩
  rw [show wordReading 0x8000000000000001 =
    .number (signFactor 1 * (((1 : Nat) : ℚ) * (2 : ℚ) ^ (-1074 : Int))) from rfl]
  simp [signFactor]

/-- For MagnitudeIsWhatTheWordDenotes, second clause, and UnderflowBoundary and NanPayloadIsIgnored: a word of each other class. -/
theorem witness_other_classes :
    classify 0x7FF0000000000001 = .nan ∧ classify 0x7FF0000000000000 = .inf ∧ classify 0x8000000000000000 = .zero := by
  decide

theorem witness_RepeatedDoublingIsFloor : (0 : ℚ) ≤ 43 / 64 ∧ (43 / 64 : ℚ) < 1 := by norm_num

/-- For MantissaFieldsAreRepeatedDoubling, MantissaNormalizerProperties and ShorterMantissaIsAPrefix: the ends of the significand's range, a shift
of 1, and an `M` that loses nothing. -/
theorem witness_significands :
    2 ^ 52 ≤ 2 ^ 52 ∧ 2 ^ 52 ≤ 2 ^ 53 - 1 ∧ 2 ^ 53 - 1 < 2 ^ 53 ∧ 1 ≤ 1 ∧ 1 ≤ 2 ∧ 52 ≤ 60 ∧ 52 + 1 ≤ 60 ∧ 10 ≤ 60 := by
  decide

theorem witness_RangesAreDisjointAndCover : Layout.half.Valid ∧ (Layout.custom 1 0).Valid := by decide

/-- 65536 on `half` has `be = 2^E - 1`, 131072 exceeds it, 2^-15 has `be = 0`, 2^-14 `be = 1`, 65504 `be = 2^E - 2`. For
AllOnesExponentFromFiniteWord, OverflowBoundary, UnderflowBoundary and TruncationErrorBound. -/
theorem witness_half_boundaries :
    trueExponent ⟨0x40F0000000000000, by decide⟩ + halfInst.layout.effBias = 2 ^ halfInst.layout.expBits - 1 ∧
    2 ^ halfInst.layout.expBits - 1 < trueExponent ⟨0x4100000000000000, by decide⟩ + halfInst.layout.effBias ∧
    trueExponent ⟨0x3F00000000000000, by decide⟩ + halfInst.layout.effBias ≤ 0 ∧
    trueExponent ⟨0x3F10000000000000, by decide⟩ + halfInst.layout.effBias = 1 ∧
    trueExponent ⟨0x40EFFC0000000000, by decide⟩ + halfInst.layout.effBias = 2 ^ halfInst.layout.expBits - 2 := by decide

theorem witness_ExponentFieldIsMonotone (w : FiniteWord) : magnitude w ≤ magnitude w := le_refl _

theorem witness_ThirteenPoint375ReadsBackExactly :
    6 ≤ halfInst.layout.manBits ∧ 1 ≤ 3 + halfInst.layout.effBias ∧
      3 + halfInst.layout.effBias ≤ 2 ^ halfInst.layout.expBits - 2 := by decide

/-- The preset, and the record that leaves the total to its default. -/
theorem witness_DoubleEncodesEveryWordToItself :
    (Instance.double.layout.expBits = 11 ∧ Instance.double.layout.manBits = 52 ∧ Instance.double.layout.effBias = 1023) ∧
    (Layout.custom 11 52).Valid ∧ (Layout.custom 11 52).effBias = 1023 := by decide

theorem witness_NanPayloadIsIgnored :
    1 ≤ halfInst.layout.manBits ∧ tinyInst.layout.manBits = 0 ∧ classify 0x7FF8000000000000 = .nan ∧
      signOf 0x7FF8000000000000 = signOf 0x7FF0000000000001 ∧ signOf 0x7FF8000000000000 = signOf 0x7FF0000000000000 := by
  decide

theorem witness_ContainerPadsTheMostSignificantEnd :
    ({ Layout.custom 6 12 with totalExplicit := true, totalBits := 24 } : Layout).Valid := by decide

theorem witness_HexViewPadsTheLeastSignificantEnd : 4 < (Layout.custom 6 12).H / 4 ∧ 0 < (Layout.custom 1 0).H / 4 := by
  decide

theorem witness_custom_layout : customInst.layout = Layout.custom 6 12 := rfl

/-- For ValidLayoutElaborates on `M = 10`: the least and the greatest allowed constant, and the two beside them that are not. -/
theorem witness_ValidLayoutElaborates :
    RawLayout.failure ⟨5, 10, false, 0, false, 0⟩ = none ∧ 1 < 2 ^ 10 ∧ 1023 < 2 ^ 10 ∧ ¬ 1024 < 2 ^ 10 ∧
    (nanChoice Layout.half (some 1)).isSome = true ∧ (nanChoice Layout.half (some 1023)).isSome = true ∧
    (nanChoice Layout.half (some 0)).isSome = false ∧ (nanChoice Layout.half (some 1024)).isSome = false ∧
    (nanChoice (Layout.custom 1 0) (some 0)).isSome = true := by decide

/-- A DONE state with its request recorded and its result held, and a step that transfers the response. -/
theorem witness_StepKeepsTheHistoryInvariant :
    ∃ s t h, s.phaseR = .done ∧ s.HistoryInv h ∧ s.responseTransfer.isSome = true ∧ step s = .next t :=
  ⟨(st .idle 0 0 [take]).complete 5 (encodeValue halfInst 5), _, { requests := [5], responses := [] }, rfl,
    ⟨fun _ => rfl, rfl, rfl, fun _ => rfl⟩, rfl, rfl⟩

theorem witness_HistoryInvariantAtIdle : (st .idle 9 9 [offer 5]).phaseR = .idle := rfl

/-- Records at the boundary of each check of R150: `E = 0`; `M = -1`; `T` one too small; `T` just large enough. -/
theorem witness_elaboration :
    RawLayout.failure ⟨0, 10, false, 0, false, 0⟩ = some .expBitsTooSmall ∧
    RawLayout.failure ⟨1, -1, false, 0, false, 0⟩ = some .manBitsNegative ∧
    RawLayout.failure ⟨6, 12, false, 0, true, 18⟩ = some .totalBitsTooSmall ∧
    RawLayout.failure ⟨6, 12, false, 0, true, 19⟩ = none := by decide

end Sys2Proof.Tests
end

section
/-! SUPPORT. The two things an edge without reset can do in DONE (R15, R16), and the statements about them. -/

namespace Sys2Proof.Machine

/-- R15: the Deliver edge. -/
theorem step_of_deliver (s : State) (hr : s.sampled.rst = false) (hp : s.phaseR = .done)
    (hy : s.sampled.rspReady = true) : step s = .next s.deliver.tick := by
  simp [step_of_done s hr hp, hy]

/-- R16: one Hold edge only uses up its inputs. -/
theorem step_of_hold (s : State) (hr : s.sampled.rst = false) (hp : s.phaseR = .done)
    (hy : s.sampled.rspReady = false) : step s = .next s.tick := by
  simp [step_of_done s hr hp, hy]

/-- R33: outside IDLE `req_ready` is 0, so no request is transferred. -/
theorem requestTransfer_eq_none_of_not_idle (s : State) (hp : s.phaseR ≠ .idle) : s.requestTransfer = none := by
  simp [State.requestTransfer, State.reqReady, hp]

/-- R32: in DONE the response is transferred at an edge without reset that samples `rsp_ready = 1`. -/
theorem responseTransfer_of_deliver (s : State) (hr : s.sampled.rst = false) (hp : s.phaseR = .done)
    (hy : s.sampled.rspReady = true) : s.responseTransfer = some s.dataOut := by
  simp [State.responseTransfer, State.rspValid, hr, hp, hy]

/-- R16: `k` Hold edges only use up their inputs. A Hold edge stays in DONE, so the next one is again a Hold edge. -/
theorem run_of_hold (k : Nat) (s : State) (hp : s.phaseR = .done)
    (hold : ∀ j, j < k → (s.sampledAt j).rst = false ∧ (s.sampledAt j).rspReady = false) :
    run k s = .next (s.ticks k) := by
  induction k generalizing s with
  | zero => rfl
  | succ k ih =>
    obtain ⟨hr, hy⟩ := hold 0 k.succ_pos
    have later : ∀ j, j < k → (s.tick.sampledAt j).rst = false ∧ (s.tick.sampledAt j).rspReady = false := by
      intro j hj
      rw [State.tick_sampledAt]
      exact hold (j + 1) (Nat.succ_lt_succ hj)
    calc run (k + 1) s = run k s.tick := run_succ k (step_of_hold s hr hp hy)
      _ = .next (s.tick.ticks k) := ih s.tick hp later
      _ = .next (s.ticks (k + 1)) := by rw [State.tick_ticks]

/-- Settles O6, by induction on the number of Hold edges. -/
theorem holdChangesNoRegister : Obligations.HoldChangesNoRegister := run_of_hold

/-- Settles O5, from the Deliver edge and the two transfers at it. -/
theorem deliverReturnsToIdle : Obligations.DeliverReturnsToIdle := by
  intro s hr hp hy
  have notIdle : s.phaseR ≠ .idle := by simp [hp]
  exact ⟨step_of_deliver s hr hp hy, responseTransfer_of_deliver s hr hp hy,
    requestTransfer_eq_none_of_not_idle s notIdle, rfl⟩

end Sys2Proof.Machine
end

section
/-! SUPPORT. The two handshake outputs as functions of the phase, the transfers at a reset edge (R33), and the statement about them. -/

namespace Sys2Proof.Machine

/-- R33: `req_ready` says that the phase is IDLE. -/
theorem reqReady_iff (s : State) : s.reqReady = true ↔ s.phaseR = .idle := beq_iff_eq

/-- R33: `rsp_valid` says that the phase is DONE. -/
theorem rspValid_iff (s : State) : s.rspValid = true ↔ s.phaseR = .done := beq_iff_eq

/-- R33: in IDLE the block is ready for a request and offers no response. -/
theorem handshake_of_idle {s : State} (hp : s.phaseR = .idle) : s.reqReady = true ∧ s.rspValid = false := by
  have notDone : ¬ s.rspValid = true := by simp [rspValid_iff, hp]
  exact ⟨(reqReady_iff s).mpr hp, Bool.eq_false_of_not_eq_true notDone⟩

/-- R33: `rst` masks the request transfer. -/
theorem requestTransfer_eq_none_of_reset (s : State) (hr : s.sampled.rst = true) : s.requestTransfer = none := by
  simp [State.requestTransfer, hr]

/-- R33: `rst` masks the response transfer. -/
theorem responseTransfer_eq_none_of_reset (s : State) (hr : s.sampled.rst = true) : s.responseTransfer = none := by
  simp [State.responseTransfer, hr]

/-- A reset edge ends in IDLE, from whatever phase. -/
theorem phaseR_of_reset_step {s t : State} (hr : s.sampled.rst = true) (h : step s = .next t) : t.phaseR = .idle := by
  rw [step_of_reset s hr] at h
  obtain rfl := Host.Outcome.next.inj h
  rw [State.tick_phaseR, State.resetEdge_phaseR]

/-- Settles O7: both outputs are tests of the phase, which a reset edge and reset itself put to IDLE. -/
theorem handshakeOutputsFollowThePhase : Obligations.HandshakeOutputsFollowThePhase := by
  refine ⟨fun s => ⟨reqReady_iff s, rspValid_iff s⟩, ?inputsDoNotMatter, ?noTransferAtReset, ?afterResetEdge, ?afterReset⟩
  case inputsDoNotMatter => exact fun _ _ => ⟨rfl, rfl⟩
  case noTransferAtReset =>
    exact fun s hr => ⟨requestTransfer_eq_none_of_reset s hr, responseTransfer_eq_none_of_reset s hr⟩
  case afterResetEdge => exact fun _ _ hr h => handshake_of_idle (phaseR_of_reset_step hr h)
  case afterReset => exact fun I => handshake_of_idle (State.afterReset_phaseR I)

end Sys2Proof.Machine
end

section
/-! SUPPORT. The normalised significand of a FINITE word (R90): its equation, its range, what it is of a host-normal word and how it
gives the magnitude back; and the statement about them. -/

namespace Sys2Proof.Machine

/-- `lzc53` counts no doubling for a number that already has bit 52 set. -/
theorem lzc53_eq_zero (x : Nat) (h : 2 ^ 52 ≤ x) : lzc53 x = 0 := by
  have hx : x ≠ 0 := by omega
  exact Nat.sub_eq_zero_of_le ((Nat.le_log2 hx).mpr h)

/-- R90: `S = S0 * 2^lz`. -/
theorem significand_eq (w : FiniteWord) : significand w = rawSignificand w * 2 ^ leadingZeros w := rfl

/-- R90: bit 52 of the significand is set, and no bit above it. -/
theorem significand_bounds (w : FiniteWord) : 2 ^ 52 ≤ significand w ∧ significand w < 2 ^ 53 := by
  obtain ⟨hpos, hlt⟩ := rawSignificand_bounds w
  obtain ⟨hlo, hhi, -⟩ := lzc53_spec (rawSignificand w) hpos hlt
  exact ⟨hlo, hhi⟩

/-- R72: the raw significand of a host-normal word carries the implicit bit 52. -/
theorem le_rawSignificand_of_normal (w : FiniteWord) (h : inE w.1 ≠ 0) : 2 ^ 52 ≤ rawSignificand w := by
  rw [rawSignificand, if_pos h]
  exact Nat.le_add_right _ _

/-- R90: a host-normal word has no leading zeros to shift out. -/
theorem leadingZeros_of_normal (w : FiniteWord) (h : inE w.1 ≠ 0) : leadingZeros w = 0 :=
  lzc53_eq_zero _ (le_rawSignificand_of_normal w h)

/-- R90: the significand of a host-normal word is its raw significand. -/
theorem significand_of_normal (w : FiniteWord) (h : inE w.1 ≠ 0) : significand w = rawSignificand w := by
  rw [significand_eq, leadingZeros_of_normal w h, Nat.pow_zero, Nat.mul_one]

/-- R90: the factor `2^lz` that `S` has over `S0` is the one that `e = e0 - lz` takes off the exponent. -/
theorem magnitude_eq (w : FiniteWord) :
    magnitude w = (significand w : ℚ) / 2 ^ 52 * (2 : ℚ) ^ trueExponent w := by
  have hexp : rawExponent w - 52 = (leadingZeros w : Int) - 52 + trueExponent w := by
    unfold trueExponent
    omega
  calc magnitude w
      = rawSignificand w * (2 : ℚ) ^ ((leadingZeros w : Int) - 52 + trueExponent w) := by rw [magnitude, hexp]
    _ = rawSignificand w * (2 ^ leadingZeros w / 2 ^ 52 * (2 : ℚ) ^ trueExponent w) := by
        rw [zpow_add₀ two_ne_zero, zpow_sub₀ two_ne_zero, zpow_natCast, zpow_ofNat]
    _ = (significand w : ℚ) / 2 ^ 52 * (2 : ℚ) ^ trueExponent w := by
        rw [significand_eq]
        push_cast
        ring

/-- Settles O36, from the range that `lzc53` normalises into and the exponent that pays for the shift. -/
theorem significandIsNormalised : Obligations.SignificandIsNormalised := by
  intro w
  obtain ⟨hlo, hhi⟩ := significand_bounds w
  exact ⟨significand_eq w, hlo, hhi, magnitude_eq w,
    fun normal => ⟨leadingZeros_of_normal w normal, significand_of_normal w normal⟩⟩

end Sys2Proof.Machine
end

section
/-! SUPPORT. The canonical bit string of R118 as a number and field by field, the container word of R119, the three ranges of R111, and
the statements about them. -/

namespace Sys2Proof.Machine

/-! ### The canonical bit string (R118) -/

/-- A concatenation as a number: the left part counts in units of the right part's width. -/
theorem toNat_append_eq_mul_add {m n : Nat} (x : BitVec m) (y : BitVec n) :
    (x ++ y).toNat = x.toNat * 2 ^ n + y.toNat := by
  rw [BitVec.toNat_append, ← Nat.shiftLeft_add_eq_or_of_lt y.isLt, Nat.shiftLeft_eq]

/-- R118: `uint(bits) = sign * 2^(E+M) + uint(exp) * 2^M + uint(man)`. -/
theorem assemble_toNat {L : Layout} (f : Fields L) :
    (assemble f).toNat =
      f.sign.toNat * 2 ^ (L.expBits + L.manBits) + f.exp.toNat * 2 ^ L.manBits + f.man.toNat := by
  calc (assemble f).toNat
      = (f.sign.toNat * 2 ^ L.expBits + f.exp.toNat) * 2 ^ L.manBits + f.man.toNat := by
        rw [assemble, toNat_append_eq_mul_add, toNat_append_eq_mul_add]
    _ = f.sign.toNat * 2 ^ (L.expBits + L.manBits) + f.exp.toNat * 2 ^ L.manBits + f.man.toNat := by
        rw [Nat.pow_add]
        ring

/-- R53: a slice that starts at or above the mantissa field is a slice of `sign ‖ exp`. -/
theorem extractLsb'_assemble_of_le {L : Layout} (f : Fields L) {start len : Nat} (h : L.manBits ≤ start) :
    (assemble f).extractLsb' start len = (f.sign ++ f.exp).extractLsb' (start - L.manBits) len :=
  BitVec.extractLsb'_append_eq_of_le h

/-- R53: the sign is the leftmost bit. -/
theorem assemble_sign {L : Layout} (f : Fields L) :
    (assemble f).extractLsb' (L.expBits + L.manBits) 1 = f.sign := by
  rw [extractLsb'_assemble_of_le f (Nat.le_add_left _ _), Nat.add_sub_cancel]
  exact BitVec.extractLsb'_append_eq_left

/-- R53: the exponent field stands on the `M` mantissa bits. -/
theorem assemble_exp {L : Layout} (f : Fields L) : (assemble f).extractLsb' L.manBits L.expBits = f.exp := by
  rw [extractLsb'_assemble_of_le f le_rfl, Nat.sub_self]
  exact BitVec.extractLsb'_append_eq_right

/-- R53: the mantissa field is the low `M` bits. -/
theorem assemble_man {L : Layout} (f : Fields L) : (assemble f).extractLsb' 0 L.manBits = f.man :=
  BitVec.extractLsb'_append_eq_right

/-- Settles O52, from the number of a concatenation and the three slices. -/
theorem assembleConcatenatesTheFields : Obligations.AssembleConcatenatesTheFields :=
  fun _ f => ⟨assemble_toNat f, assemble_sign f, assemble_exp f, assemble_man f⟩

/-! ### The container word (R119) -/

/-- R4: without an explicit total the container has the width of the string. -/
theorem T_of_not_explicit {L : Layout} (h : L.totalExplicit = false) : L.T = L.W := by
  simp [Layout.T, h]

/-- R4: an explicit total is the width of the container. -/
theorem T_of_explicit {L : Layout} (h : L.totalExplicit = true) : L.T = L.totalBits := if_pos h

/-- R5: the container of a valid Layout has room for the string. -/
theorem W_le_T {L : Layout} (valid : L.Valid) : L.W ≤ L.T := by
  cases h : L.totalExplicit with
  | false => exact (T_of_not_explicit h).ge
  | true => exact (valid.2 h).trans_eq (T_of_explicit h).symm

/-- R119: the container is no wider than the string when the total is left out or is `1 + E + M`. -/
theorem T_eq_W {L : Layout} (total : L.totalExplicit = false ∨ L.totalBits = 1 + L.expBits + L.manBits) :
    L.T = L.W := by
  cases h : L.totalExplicit with
  | false => exact T_of_not_explicit h
  | true =>
    have total : L.totalBits = L.W := total.resolve_left (by simp [h])
    exact (T_of_explicit h).trans total

/-- R119: `uint(word) = uint(bits)`. -/
theorem container_toNat {L : Layout} (valid : L.Valid) (bits : BitVec L.W) :
    (container L bits).toNat = bits.toNat :=
  BitVec.toNat_setWidth_of_le (W_le_T valid)

/-- R119: the low `W` bits of the container are the string. -/
theorem container_low_bits {L : Layout} (valid : L.Valid) (bits : BitVec L.W) :
    (container L bits).extractLsb' 0 L.W = bits := by
  have fits := W_le_T valid
  calc (container L bits).extractLsb' 0 L.W
      = (container L bits).setWidth L.W := (BitVec.setWidth_eq_extractLsb' fits).symm
    _ = bits.setWidth L.W := BitVec.setWidth_setWidth_of_le bits fits
    _ = bits := BitVec.setWidth_eq bits

/-- Settles O53: validity gives the room, and zero extension into enough room changes neither the number nor the low bits. -/
theorem containerPadsTheMostSignificantEnd : Obligations.ContainerPadsTheMostSignificantEnd :=
  fun _ bits valid => ⟨W_le_T valid, container_toNat valid bits, container_low_bits valid bits, T_eq_W⟩

/-! ### The three ranges (R111) -/

/-- Settles O42: in each of the three cases of `Range(be)`, with its bounds, the other two are excluded because `2^E > 0`. -/
theorem rangesAreDisjointAndCover : Obligations.RangesAreDisjointAndCover := by
  intro L be _
  have hpos : (0 : Int) < 2 ^ L.expBits := by positivity
  obtain ⟨hbe, h⟩ | ⟨hbe, hover, h⟩ | ⟨hbe, hunder, h⟩ := rangeOf_cases L be
  case inl => simp only [h, reduceCtorEq, true_iff, false_iff]; omega
  case inr.inl => simp only [h, reduceCtorEq, true_iff, false_iff]; omega
  case inr.inr => simp only [h, reduceCtorEq, true_iff, false_iff]; omega

end Sys2Proof.Machine
end

section
/-! SUPPORT. `Encode` of a FINITE word range by range (R113 to R115), its magnitude between powers of two, and the statements about the two
ends of the normal range (R138, R139). -/

namespace Sys2Proof.Machine

/-! ### `Encode` of a FINITE word by range -/

/-- R115: below the normal range the exponent field is `0^E` and the whole significand is shifted. -/
theorem encodeValue_of_subnormal (I : Instance) (w : FiniteWord) (h : trueExponent w + I.layout.effBias ≤ 0) :
    encodeValue I w.1 =
      { sign := signOf w.1, exp := 0,
        man := mantissaSubnormal _ (significand w) (subnormalShift (trueExponent w + I.layout.effBias)) } := by
  have range : rangeOf I.layout (biased I.layout (trueExponent w)) = .subnormal := if_pos h
  rw [encodeValue_of_finite, finiteFields, range]
  rfl

/-- R113: in the normal range the exponent field is the biased exponent. -/
theorem encodeValue_of_normal (I : Instance) (w : FiniteWord) (hlo : 1 ≤ trueExponent w + I.layout.effBias)
    (hhi : trueExponent w + I.layout.effBias < 2 ^ I.layout.expBits) :
    encodeValue I w.1 =
      { sign := signOf w.1, exp := BitVec.ofNat _ (trueExponent w + I.layout.effBias).toNat,
        man := mantissaNormal _ (significand w) } := by
  have range : rangeOf I.layout (biased I.layout (trueExponent w)) = .normal := by
    rw [rangeOf, biased, if_neg (by omega), if_neg (by omega)]
  rw [encodeValue_of_finite, finiteFields, range]
  rfl

/-- R114: above the normal range the result is the infinity pattern. -/
theorem encodeValue_of_overflow (I : Instance) (w : FiniteWord)
    (h : 2 ^ I.layout.expBits ≤ trueExponent w + I.layout.effBias) :
    encodeValue I w.1 = infFields I.layout (signOf w.1) := by
  have hE := two_le_pow_expBits I
  have range : rangeOf I.layout (biased I.layout (trueExponent w)) = .overflow := by
    rw [rangeOf, biased, if_neg (by omega), if_pos h]
  rw [encodeValue_of_finite, finiteFields, range]
  rfl

/-- R8: `bits_n(x)` as a number is `x`, for `x` in its range. -/
theorem ofNat_toNat_of_lt {n : Nat} {x : Int} (h0 : 0 ≤ x) (h : x < 2 ^ n) : ((BitVec.ofNat n x.toNat).toNat : Int) = x := by
  have fits : x.toNat < 2 ^ n := by zify; rwa [Int.toNat_of_nonneg h0]
  rw [BitVec.toNat_ofNat, Nat.mod_eq_of_lt fits, Int.toNat_of_nonneg h0]

/-! ### The overflow boundary (R138) -/

/-- The field that counts `2^E - 1` has every bit set. -/
theorem ofNat_two_pow_sub_one_eq_allOnes (n : Nat) : BitVec.ofNat n ((2 : Int) ^ n - 1).toNat = BitVec.allOnes n := by
  have hpos : (0 : Int) < 2 ^ n := by positivity
  have number : ((BitVec.ofNat n ((2 : Int) ^ n - 1).toNat).toNat : Int) = 2 ^ n - 1 :=
    ofNat_toNat_of_lt (by omega) (by omega)
  apply BitVec.eq_of_toNat_eq
  rw [BitVec.toNat_allOnes]
  zify [Nat.one_le_two_pow]
  exact number

/-- Settles O44: strictly above `2^E - 1` the range is OVERFLOW; at it, still NORMAL, with the field that counts `2^E - 1`. -/
theorem overflowBoundary : Obligations.OverflowBoundary := by
  intro I w
  have hE := two_le_pow_expBits I
  constructor
  case left =>
    intro above
    exact encodeValue_of_overflow I w (by omega)
  case right =>
    intro boundary
    rw [encodeValue_of_normal I w (by omega) (by omega), boundary, ofNat_two_pow_sub_one_eq_allOnes]

/-! ### The underflow boundary (R139) -/

/-- R90: the true exponent is the exponent of the greatest power of two up to the magnitude. -/
theorem magnitude_lt_two_zpow_iff (w : FiniteWord) (k : Int) :
    magnitude w < (2 : ℚ) ^ k ↔ trueExponent w < k := by
  obtain ⟨hlo, hhi⟩ := significand_bounds w
  have hpow : (0 : ℚ) < 2 ^ trueExponent w := by positivity
  have lower : (2 : ℚ) ^ trueExponent w ≤ magnitude w := by
    have : (1 : ℚ) ≤ significand w / 2 ^ 52 := (one_le_div₀ (by positivity)).mpr (by exact_mod_cast hlo)
    rw [magnitude_eq]
    exact le_mul_of_one_le_left hpow.le this
  have upper : magnitude w < (2 : ℚ) ^ (trueExponent w + 1) := by
    have : (significand w / 2 ^ 52 : ℚ) < 2 := (div_lt_iff₀ (by positivity)).mpr (by exact_mod_cast hhi)
    rw [magnitude_eq, zpow_add_one₀ two_ne_zero, mul_comm ((2 : ℚ) ^ trueExponent w)]
    exact mul_lt_mul_of_pos_right this hpow
  constructor
  case mp => exact fun h => (zpow_lt_zpow_iff_right₀ one_lt_two).mp (lower.trans_lt h)
  case mpr => exact fun h => upper.trans_le (zpow_le_zpow_right₀ one_le_two h)

/-- R113: the bits of a positive number in range are not all zero. -/
theorem ofNat_toNat_ne_zero {n : Nat} {x : Int} (hpos : 1 ≤ x) (h : x < 2 ^ n) : BitVec.ofNat n x.toNat ≠ 0 := by
  intro zero
  have number := ofNat_toNat_of_lt (by omega) h
  rw [zero, BitVec.ofNat_eq_ofNat, BitVec.toNat_zero] at number
  omega

/-- R114: the all-ones exponent field of a valid Layout is not all zero. -/
theorem allOnes_expBits_ne_zero (I : Instance) : BitVec.allOnes I.layout.expBits ≠ 0 := fun zero =>
  Nat.one_le_iff_ne_zero.mp I.layoutValid.1 (BitVec.allOnes_eq_zero_iff.mp zero)

/-- R113 to R115: only the subnormal range gives a zero exponent field. -/
theorem encodeValue_exp_eq_zero_iff (I : Instance) (w : FiniteWord) :
    (encodeValue I w.1).exp = 0 ↔ trueExponent w + I.layout.effBias ≤ 0 := by
  obtain ⟨hbe, -⟩ | ⟨hbe, hover, -⟩ | ⟨hbe, hunder, -⟩ :=
    rangeOf_cases I.layout (trueExponent w + I.layout.effBias)
  case inl => simp [encodeValue_of_subnormal I w hbe, hbe]
  case inr.inl =>
    rw [encodeValue_of_overflow I w hover]
    exact iff_of_false (allOnes_expBits_ne_zero I) (by omega)
  case inr.inr =>
    rw [encodeValue_of_normal I w hbe hunder]
    exact iff_of_false (ofNat_toNat_ne_zero hbe hunder) (by omega)

/-- R130: the sign field of a FINITE word is its sign. -/
theorem encodeValue_sign_of_finite (I : Instance) (w : FiniteWord) : (encodeValue I w.1).sign = signOf w.1 := by
  rw [encodeValue_of_finite]
  rfl

/-- Settles O45, with the power of two that the smallest normal is and the range that alone gives a zero exponent field. -/
theorem underflowBoundary : Obligations.UnderflowBoundary := by
  refine ⟨fun I w => ⟨?smallestNormal, ?zeroField⟩, ?zeroWord⟩
  case smallestNormal =>
    rw [magnitude_lt_two_zpow_iff]
    omega
  case zeroField =>
    rw [encodeValue_exp_eq_zero_iff, and_iff_right (encodeValue_sign_of_finite I w)]
  case zeroWord =>
    intro I w zero
    rw [encodeValue_of_zero I w zero]
    rfl

end Sys2Proof.Machine
end

section
/-! SUPPORT. No run ends in a fault or a refusal (R152), and the statement about it. -/

namespace Sys2Proof.Machine

/-- Settles O12, by induction on the number of edges: every edge answers a next state, from which the rest of the run is safe. -/
theorem everyRunIsSafe : Obligations.EveryRunIsSafe := by
  intro k
  induction k with
  | zero => exact fun s => ⟨s, run_zero s⟩
  | succ k ih =>
    intro s
    obtain ⟨t, edge⟩ := step_answers s
    obtain ⟨u, rest⟩ := ih t
    exact ⟨u, (run_succ k edge).trans rest⟩

end Sys2Proof.Machine
end

section
/-! SUPPORT. The checks of a parameter record one by one (R150, R151), when `elaborate` raises `InvalidLayout`, and the statement about
it. -/

namespace Sys2Proof

/-! ### The first check that a record fails -/

theorem RawLayout.failure_of_expBits_lt_one (r : RawLayout) (hE : r.expBits < 1) :
    r.failure = some .expBitsTooSmall := if_pos hE

theorem RawLayout.failure_of_manBits_neg (r : RawLayout) (hE : 1 ≤ r.expBits) (hM : r.manBits < 0) :
    r.failure = some .manBitsNegative := by
  rw [failure, if_neg hE.not_gt, if_pos hM]

theorem RawLayout.failure_of_totalBits_lt (r : RawLayout) (hE : 1 ≤ r.expBits) (hM : 0 ≤ r.manBits)
    (explicit : r.totalExplicit = true) (hT : r.totalBits < 1 + r.expBits + r.manBits) :
    r.failure = some .totalBitsTooSmall := by
  rw [failure, if_neg hE.not_gt, if_neg hM.not_gt, if_pos ⟨explicit, hT⟩]

/-- R150: a valid record fails no check. -/
theorem RawLayout.failure_of_valid (r : RawLayout) (hE : 1 ≤ r.expBits) (hM : 0 ≤ r.manBits)
    (hT : r.totalExplicit = true → 1 + r.expBits + r.manBits ≤ r.totalBits) : r.failure = none := by
  have fits : ¬ (r.totalExplicit = true ∧ r.totalBits < 1 + r.expBits + r.manBits) :=
    fun ⟨explicit, short⟩ => (hT explicit).not_gt short
  rw [failure, if_neg hE.not_gt, if_neg hM.not_gt, if_neg fits]

end Sys2Proof

namespace Sys2Proof.Machine

/-- R150: `elaborate` raises `InvalidLayout` exactly for a record that fails a check, with that reason and that record, whatever
`NAN_MANTISSA` is given. -/
theorem elaborate_eq_invalidLayout_iff (r r' : RawLayout) (nan : Option Nat) (reason : LayoutError) :
    elaborate r nan = .refused (.invalidLayout reason r') ↔ r.failure = some reason ∧ r = r' := by
  unfold elaborate
  split
  next failed => simp [failed]
  next passed =>
    cases nanChoice r.toLayout nan <;> simp [passed]

/-- Settles O56: in each case of R150 the record's first failing check is known, and `elaborate` raises exactly that. -/
theorem invalidLayoutIsRefusedByItsLowestReason : Obligations.InvalidLayoutIsRefusedByItsLowestReason := by
  intro r nan
  have raised : ∀ reason, r.failure = some reason → elaborate r nan = .refused (.invalidLayout reason r) :=
    fun reason failed => (elaborate_eq_invalidLayout_iff r r nan reason).mpr ⟨failed, rfl⟩
  refine ⟨?expBits, ?manBits, ?totalBits, ?valid⟩
  case expBits => exact fun hE => raised _ (r.failure_of_expBits_lt_one hE)
  case manBits => exact fun hE hM => raised _ (r.failure_of_manBits_neg hE hM)
  case totalBits => exact fun hE hM explicit hT => raised _ (r.failure_of_totalBits_lt hE hM explicit hT)
  case valid =>
    intro hE hM hT reason refused
    obtain ⟨failed, -⟩ := (elaborate_eq_invalidLayout_iff r r nan reason).mp refused
    rw [r.failure_of_valid hE hM hT] at failed
    contradiction

end Sys2Proof.Machine
end

section
/-! SUPPORT. The invariants that one edge keeps: the result invariant (R17), the history of transfers (R37, R171, R183), the constant
parameters (R39); and the statements about them. -/

namespace Sys2Proof.Machine

/-! ### The result invariant (R17) -/

/-- R17 asks nothing of a state outside DONE. -/
theorem inv_of_not_done {s : State} (hp : s.phaseR ≠ .done) : s.Inv := fun done => absurd done hp

/-- R16: an edge that only uses up its inputs keeps R17. -/
@[simp] theorem State.tick_inv (s : State) : s.tick.Inv ↔ s.Inv := Iff.rfl

/-- R14: the write of the result establishes R17. -/
theorem complete_inv (s : State) (w : Word) : (s.complete w (encodeValue s.inst w)).Inv := fun _ => rfl

/-- R13: accept does not lead from IDLE to DONE. -/
theorem accept_phaseR_ne_done {s : State} (hp : s.phaseR = .idle) : s.accept.phaseR ≠ .done := by
  unfold State.accept
  split <;> simp [hp]

/-- Settles O10: only the edge that ends BUSY enters DONE, and it writes what R17 asks; a Hold edge leaves it as it stands. -/
theorem stepKeepsTheResultInvariant : Obligations.StepKeepsTheResultInvariant := by
  intro s t inv h
  obtain ⟨-, rfl⟩ | ⟨-, hp, rfl⟩ | ⟨-, hp, -, rfl⟩ | ⟨-, -, -, rfl⟩ | ⟨-, -, -, rfl⟩ | ⟨-, -, -, rfl⟩ := step_cases h
  · exact inv_of_not_done (by simp)
  · exact (State.tick_inv _).mpr (inv_of_not_done (accept_phaseR_ne_done hp))
  · exact inv_of_not_done (by simp [hp])
  · exact (State.tick_inv _).mpr (complete_inv s s.valueR)
  · exact inv_of_not_done (by simp)
  · exact (State.tick_inv s).mpr inv

/-- Settles O11: right after reset the phase is IDLE. -/
theorem resultInvariantAfterReset : Obligations.ResultInvariantAfterReset :=
  ⟨inv_of_not_done (by simp [State.reset]), fun I => inv_of_not_done (by simp)⟩

/-! ### The transfers at one edge (R32) -/

/-- R32: in IDLE an offer at an edge without reset is transferred. -/
theorem requestTransfer_of_offer {s : State} (hr : s.sampled.rst = false) (hp : s.phaseR = .idle)
    (offer : s.sampled.reqValid = true) : s.requestTransfer = some s.sampled.reqValue := by
  simp [State.requestTransfer, State.reqReady, hr, hp, offer]

/-- R32: without an offer there is no request transfer. -/
theorem requestTransfer_eq_none_of_no_offer {s : State} (offer : s.sampled.reqValid = false) :
    s.requestTransfer = none := by
  simp [State.requestTransfer, offer]

/-- R33: outside DONE `rsp_valid` is 0, so no response is transferred. -/
theorem responseTransfer_eq_none_of_not_done {s : State} (hp : s.phaseR ≠ .done) : s.responseTransfer = none := by
  simp [State.responseTransfer, State.rspValid, hp]

/-- R32: without `rsp_ready` there is no response transfer. -/
theorem responseTransfer_eq_none_of_not_ready {s : State} (ready : s.sampled.rspReady = false) :
    s.responseTransfer = none := by
  simp [State.responseTransfer, ready]

/-- Settles O8, the guards of the two transfers taken apart. -/
theorem transfersNeedBothSides : Obligations.TransfersNeedBothSides := by
  intro s
  constructor
  case left => simp [State.requestTransfer, and_assoc]
  case right => simp [State.responseTransfer, and_assoc]

/-- R37: an edge without reset and without a transfer leaves the history as it is. -/
theorem record_of_no_transfer {s : State} (h : History) (hr : s.sampled.rst = false)
    (request : s.requestTransfer = none) (response : s.responseTransfer = none) : s.record h = h := by
  simp [record_of_edge s h hr, request, response]

/-- R13, R37: an accepted request joins the history. -/
theorem record_of_offer {s : State} (h : History) (hr : s.sampled.rst = false) (hp : s.phaseR = .idle)
    (offer : s.sampled.reqValid = true) :
    s.record h = { h with requests := h.requests ++ [s.sampled.reqValue] } := by
  simp [record_of_edge s h hr, requestTransfer_of_offer hr hp offer,
    responseTransfer_eq_none_of_not_done (s := s) (by simp [hp])]

/-- R15, R17, R183: a delivered response that the result invariant speaks of is the one owed to the word in `value_r`. -/
theorem observed_responseTransfer_of_deliver {s : State} (inv : s.Inv) (hr : s.sampled.rst = false)
    (hp : s.phaseR = .done) (ready : s.sampled.rspReady = true) :
    s.responseTransfer.map (Observed.mk s.inst.layout) = some (owed s.inst s.valueR) := by
  rw [responseTransfer_of_deliver s hr hp ready, dataOut_of_done s hp, inv hp]
  rfl

/-- R15, R37: the history after a Deliver edge. -/
theorem record_of_deliver {s : State} (h : History) (inv : s.Inv) (hr : s.sampled.rst = false) (hp : s.phaseR = .done)
    (ready : s.sampled.rspReady = true) :
    s.record h = { h with responses := h.responses ++ [owed s.inst s.valueR] } := by
  rw [record_of_edge s h hr, requestTransfer_eq_none_of_not_idle s (by simp [hp]),
    observed_responseTransfer_of_deliver inv hr hp ready]
  simp

/-! ### The history invariant (R37, R171, R183) -/

/-- The request without a response: the word in `value_r`, unless the block is IDLE. -/
def State.inFlight (s : State) : List Word := if s.phaseR = .idle then [] else [s.valueR]

theorem inFlight_of_idle {s : State} (hp : s.phaseR = .idle) : s.inFlight = [] := if_pos hp

theorem inFlight_of_not_idle {s : State} (hp : s.phaseR ≠ .idle) : s.inFlight = [s.valueR] := if_neg hp

@[simp] theorem State.tick_inFlight (s : State) : s.tick.inFlight = s.inFlight := rfl

/-- The history invariant in one equation: the requests are the answered ones and then the one in flight. -/
theorem historyInv_iff (s : State) (h : History) :
    s.HistoryInv h ↔ s.Inv ∧ ∃ answered, h.requests = answered ++ s.inFlight ∧ h.responses = answered.map (owed s.inst) := by
  constructor
  case mp =>
    rintro ⟨inv, responses, count, last⟩
    refine ⟨inv, h.requests.take h.responses.length, ?_, responses⟩
    by_cases hp : s.phaseR = .idle
    · rw [if_pos hp, Nat.add_zero] at count
      rw [inFlight_of_idle hp, List.append_nil, ← count, List.take_length]
    · rw [if_neg hp] at count
      have before : h.requests.take h.responses.length = h.requests.dropLast := by
        rw [List.dropLast_eq_take, count, Nat.add_sub_cancel]
      rw [before, inFlight_of_not_idle hp]
      exact (List.dropLast_append_getLast? s.valueR (last hp)).symm
  case mpr =>
    rintro ⟨inv, answered, requests, responses⟩
    have count : h.responses.length = answered.length := by simp [responses]
    refine ⟨inv, ?_, ?_, ?_⟩
    · rw [count, requests, List.take_left, responses]
    · rw [requests, count, List.length_append]
      by_cases hp : s.phaseR = .idle <;> simp [State.inFlight, hp]
    · intro hp
      rw [requests, inFlight_of_not_idle hp, List.getLast?_concat]

/-- With nothing transferred the history invariant holds in IDLE. -/
theorem historyInv_of_idle {s : State} (hp : s.phaseR = .idle) : s.HistoryInv History.empty :=
  (historyInv_iff s _).mpr ⟨inv_of_not_done (by simp [hp]), [], by simp [inFlight_of_idle hp, History.empty], rfl⟩

/-- Settles O60, from the invariant in IDLE. -/
theorem historyInvariantAtIdle : Obligations.HistoryInvariantAtIdle :=
  ⟨fun _ hp => historyInv_of_idle hp, fun I => historyInv_of_idle (State.afterReset_phaseR I)⟩

/-- An edge without reset and without a transfer keeps the history invariant where it keeps the request in flight. -/
theorem historyInv_of_no_transfer {s t : State} {h : History} (hist : s.HistoryInv h) (hr : s.sampled.rst = false)
    (request : s.requestTransfer = none) (response : s.responseTransfer = none) (invT : t.Inv)
    (inst : t.inst = s.inst) (inFlight : t.inFlight = s.inFlight) : t.HistoryInv (s.record h) := by
  obtain ⟨-, answered, requests, responses⟩ := (historyInv_iff s h).mp hist
  rw [record_of_no_transfer h hr request response, historyInv_iff, inFlight, inst]
  exact ⟨invT, answered, requests, responses⟩

/-- R13: the Accept edge keeps the history invariant; an offered word becomes the request in flight. -/
theorem historyInv_of_accept {s : State} {h : History} (hist : s.HistoryInv h) (hr : s.sampled.rst = false)
    (hp : s.phaseR = .idle) (invT : s.accept.tick.Inv) : s.accept.tick.HistoryInv (s.record h) := by
  cases offer : s.sampled.reqValid with
  | true =>
    obtain ⟨-, answered, requests, responses⟩ := (historyInv_iff s h).mp hist
    rw [record_of_offer h hr hp offer, historyInv_iff, s.accept_of_offer offer]
    rw [inFlight_of_idle hp, List.append_nil] at requests
    exact ⟨inv_of_not_done (by simp), answered, by simp [requests, State.inFlight], responses⟩
  | false =>
    have same : s.accept = s := s.accept_of_none offer
    exact historyInv_of_no_transfer hist hr (requestTransfer_eq_none_of_no_offer offer)
      (responseTransfer_eq_none_of_not_done (by simp [hp])) invT (by simp) (by rw [State.tick_inFlight, same])

/-- R15: the Deliver edge keeps the history invariant; the response answers the request in flight. -/
theorem historyInv_of_deliver {s : State} {h : History} (hist : s.HistoryInv h) (hr : s.sampled.rst = false)
    (hp : s.phaseR = .done) (ready : s.sampled.rspReady = true) : s.deliver.tick.HistoryInv (s.record h) := by
  obtain ⟨inv, answered, requests, responses⟩ := (historyInv_iff s h).mp hist
  rw [inFlight_of_not_idle (by simp [hp])] at requests
  rw [record_of_deliver h inv hr hp ready, historyInv_iff]
  exact ⟨inv_of_not_done (by simp), answered ++ [s.valueR], by simp [requests, State.inFlight], by simp [responses]⟩

/-- Settles O59. A transferred request becomes the one in flight, a transferred response answers it, a reset edge starts anew, and every
other edge keeps both the history and the request in flight. -/
theorem stepKeepsTheHistoryInvariant : Obligations.StepKeepsTheHistoryInvariant := by
  intro s t h hist hstep
  have invT : t.Inv := stepKeepsTheResultInvariant s t hist.1 hstep
  obtain ⟨hr, rfl⟩ | ⟨hr, hp, rfl⟩ | ⟨hr, hp, -, rfl⟩ | ⟨hr, hp, -, rfl⟩ | ⟨hr, hp, ready, rfl⟩ | ⟨hr, hp, ready, rfl⟩ :=
    step_cases hstep
  · rw [record_of_reset s h hr]
    exact historyInv_of_idle rfl
  · exact historyInv_of_accept hist hr hp invT
  · exact historyInv_of_no_transfer hist hr (requestTransfer_eq_none_of_not_idle s (by simp [hp]))
      (responseTransfer_eq_none_of_not_done (by simp [hp])) invT rfl rfl
  · exact historyInv_of_no_transfer hist hr (requestTransfer_eq_none_of_not_idle s (by simp [hp]))
      (responseTransfer_eq_none_of_not_done (by simp [hp])) invT rfl (by simp [State.inFlight, hp])
  · exact historyInv_of_deliver hist hr hp ready
  · exact historyInv_of_no_transfer hist hr (requestTransfer_eq_none_of_not_idle s (by simp [hp]))
      (responseTransfer_eq_none_of_not_ready ready) invT rfl rfl

/-! ### The constant parameters (R39) -/

/-- R39: no edge writes the parameters. -/
theorem step_inst {s t : State} (h : step s = .next t) : t.inst = s.inst := by
  obtain ⟨-, rfl⟩ | ⟨-, -, rfl⟩ | ⟨-, -, -, rfl⟩ | ⟨-, -, -, rfl⟩ | ⟨-, -, -, rfl⟩ | ⟨-, -, -, rfl⟩ := step_cases h <;> simp

/-- Settles O15, by induction on the number of edges. -/
theorem parametersNeverChange : Obligations.ParametersNeverChange := by
  intro k
  induction k with
  | zero =>
    intro s t h
    obtain rfl := Host.Outcome.next.inj h
    rfl
  | succ k ih =>
    intro s t h
    obtain ⟨u, edge⟩ := step_answers s
    rw [run_succ k edge] at h
    exact (ih u t h).trans (step_inst edge)

/-- R37: the history invariant after any number of edges, and the parameters those of the start. -/
theorem observe_historyInv (k : Nat) (s : State) (h : History) (hist : s.HistoryInv h) :
    ∃ t h', observe k s h = some (t, h') ∧ t.HistoryInv h' ∧ t.inst = s.inst := by
  induction k generalizing s h with
  | zero => exact ⟨s, h, rfl, hist, rfl⟩
  | succ k ih =>
    obtain ⟨u, edge⟩ := step_answers s
    obtain ⟨t, h', rest, hist', inst⟩ := ih u (s.record h) (stepKeepsTheHistoryInvariant s u h hist edge)
    exact ⟨t, h', (observe_succ k h edge).trans rest, hist', inst.trans (step_inst edge)⟩

/-- Settles O18: in IDLE the history invariant holds with nothing transferred, and every edge keeps it. -/
theorem responsesMatchRequestsInOrder : Obligations.ResponsesMatchRequestsInOrder := by
  intro k s hp
  obtain ⟨t, h, edges, ⟨-, responses, count, -⟩, inst⟩ := observe_historyInv k s _ (historyInv_of_idle hp)
  exact ⟨t, h, edges, inst ▸ responses, count⟩

end Sys2Proof.Machine
end

section
/-! SUPPORT. The rows of the opcode table as decoder and encoder (R50, R56, R71), and the statements about them. -/

namespace Sys2Proof

/-! ### Decoding and encoding a row -/

theorem decodeRow_eq_some_iff (r : TableRow) (w : Word) (i : Instr) :
    decodeRow r w = some i ↔ r.covers w = true ∧ r.term w = i := by
  simp [decodeRow]

/-- A word is the word of its sign and whatever its other two fields are known to be. -/
theorem requestWord_of_fields {w : Word} {e : BitVec 11} {f : BitVec 52} (he : reqExp w = e) (hf : reqFrac w = f) :
    requestWord (reqSign w) e f = w := by
  rw [← he, ← hf, requestWord_fields]

theorem wellFormed_encodeClassNan (sgn : Bit) (frac : BitVec 52) :
    (Instr.encodeClassNan sgn frac).wellFormed = true ↔ frac ≠ 0 := bne_iff_ne

theorem wellFormed_encodeClassFinite (sgn : Bit) (bexp : BitVec 11) (frac : BitVec 52) :
    (Instr.encodeClassFinite sgn bexp frac).wellFormed = true ↔ bexp ≠ 2047 ∧ ¬ (bexp = 0 ∧ frac = 0) := by
  simp [Instr.wellFormed, imp_iff_not_or]

/-- R71: the four terms read from a covered word are words of their rows. -/
theorem term_wellFormed {r : TableRow} {w : Word} (h : r.covers w = true) : (r.term w).wellFormed = true :=
  match r with
  | .encode => rfl
  | .classZero => rfl
  | .classInf => rfl
  | .classNan => (wellFormed_encodeClassNan ..).mpr ((covers_classNan w).mp h).2
  | .classFinite => (wellFormed_encodeClassFinite ..).mpr ((covers_classFinite w).mp h)

theorem rowOf_term (r : TableRow) (w : Word) : rowOf (r.term w) = r := by
  cases r <;> rfl

/-- R50: the term keeps every bit of a word that its row covers. -/
theorem encode_term {r : TableRow} {w : Word} (h : r.covers w = true) : encode (r.term w) = w := by
  cases r with
  | encode => rfl
  | classZero =>
    obtain ⟨he, hf⟩ := (covers_classZero w).mp h
    exact requestWord_of_fields he hf
  | classInf =>
    obtain ⟨he, hf⟩ := (covers_classInf w).mp h
    exact requestWord_of_fields he hf
  | classNan => exact requestWord_of_fields ((covers_classNan w).mp h).1 rfl
  | classFinite => exact requestWord_fields w

/-- R50: a term is read back from its word. -/
theorem term_encode (i : Instr) : (rowOf i).term (encode i) = i := by
  cases i <;>
    simp only [rowOf, encode, TableRow.term, reqSign_requestWord, reqExp_requestWord, reqFrac_requestWord]

/-- R71: the row of a well-formed term covers the term's word. -/
theorem covers_encode_of_wellFormed {i : Instr} (wf : i.wellFormed = true) : (rowOf i).covers (encode i) = true := by
  cases i with
  | encode w => exact covers_encode w
  | encodeClassZero sgn => exact (covers_classZero _).mpr ⟨reqExp_requestWord .., reqFrac_requestWord ..⟩
  | encodeClassInf sgn => exact (covers_classInf _).mpr ⟨reqExp_requestWord .., reqFrac_requestWord ..⟩
  | encodeClassNan sgn frac =>
    refine (covers_classNan _).mpr ⟨reqExp_requestWord .., ?_⟩
    rw [encode, reqFrac_requestWord]
    exact (wellFormed_encodeClassNan sgn frac).mp wf
  | encodeClassFinite sgn bexp frac =>
    refine (covers_classFinite _).mpr ?_
    rw [encode, reqExp_requestWord, reqFrac_requestWord]
    exact (wellFormed_encodeClassFinite sgn bexp frac).mp wf

/-- Settles O31: the term of a covered word is well formed, of the row and encodes to the word; and the row of a well-formed term covers
its word and reads the term back. -/
theorem rowsDecodeAndEncodeAgree : Obligations.RowsDecodeAndEncodeAgree := by
  intro r i w
  rw [decodeRow_eq_some_iff]
  constructor
  case mp =>
    rintro ⟨covered, rfl⟩
    exact ⟨term_wellFormed covered, rowOf_term r w, encode_term covered⟩
  case mpr =>
    rintro ⟨wf, rfl, rfl⟩
    exact ⟨covers_encode_of_wellFormed wf, term_encode i⟩

/-- Settles O33: each decoder evaluated on the word. -/
theorem writtenOutWordsDecode : Obligations.WrittenOutWordsDecode := by
  refine ⟨?_, ?_, ?_, ?_, ?_⟩ <;> decide

/-! ### The request decoder (R56, R58) -/

theorem decodeVector_word (w : Word) : decodeVector 64 w = .ok (.encode w) := rfl

theorem decodeTableWord_eq_some_iff (nbits w : Nat) (i : Instr) :
    decodeTableWord nbits w = some i ↔ nbits ≤ 64 ∧ .encode (BitVec.ofNat 64 (w % 2 ^ nbits)) = i := by
  simp [decodeTableWord, decodeVector_word]

/-- Settles O30, from the two equations of the request decoder. -/
theorem everyWordDecodesToEncode : Obligations.EveryWordDecodesToEncode := by
  refine ⟨fun w => ⟨decodeVector_word w, ?_⟩, fun n v width => dif_neg width⟩
  rw [decodeTableWord_eq_some_iff, Nat.mod_eq_of_lt w.isLt, BitVec.ofNat_toNat, BitVec.setWidth_eq]
  exact ⟨le_rfl, rfl⟩

end Sys2Proof

namespace Sys2Proof.Machine

/-! ### The rows and the classes (R71) -/

/-- Settles O32: row by row the covered words are those whose fields `Classify` tests. -/
theorem classRowsPartitionTheWords : Obligations.ClassRowsPartitionTheWords := by
  intro w
  have ones : inE w = 2047 ↔ reqExp w = 2047 := inE_eq_iff w 2047 (by decide)
  have zero : inE w = 0 ↔ reqExp w = 0 := inE_eq_iff w 0 (by decide)
  refine ⟨covers_encode w, ?_, ?_, ?_, ?_⟩
  · rw [covers_classZero, classify_zero_iff, zero, inF_eq_zero_iff]
  · rw [covers_classInf, classify_inf_iff, ones, inF_eq_zero_iff]
  · rw [covers_classNan, classify_nan_iff, ones, ne_eq, ne_eq, inF_eq_zero_iff]
  · rw [covers_classFinite, classify_finite_iff, ne_eq, ne_eq, ones, zero, inF_eq_zero_iff]

/-- R71: the class row of a word covers it. -/
theorem classRow_covers (w : Word) : (classRow w).covers w = true := by
  obtain ⟨-, zero, inf, nan, finite⟩ := classRowsPartitionTheWords w
  unfold classRow
  split
  next covered => exact covered
  next notZero =>
    split
    next covered => exact covered
    next notInf =>
      split
      next covered => exact covered
      next notNan =>
        rw [finite]
        cases h : classify w with
        | zero => exact absurd (zero.mpr h) notZero
        | inf => exact absurd (inf.mpr h) notInf
        | nan => exact absurd (nan.mpr h) notNan
        | finite => rfl

theorem classRow_ne_encode (w : Word) : classRow w ≠ .encode := by
  unfold classRow
  repeat' split
  all_goals simp

/-! ### What the rows mean (R117, R130, R131) -/

/-- R131: ENCODE of a word. -/
theorem exec_encode (w : Word) (s : State) : exec (.encode w) s = .next (s.complete w (encodeValue s.inst w)) := rfl

/-- The class that a class row's word has, from its fields. -/
theorem classify_requestWord_finite_iff (sgn : Bit) (bexp : BitVec 11) (frac : BitVec 52) :
    classify (requestWord sgn bexp frac) = .finite ↔ bexp ≠ 2047 ∧ ¬ (bexp = 0 ∧ frac = 0) := by
  obtain ⟨-, -, -, -, finite⟩ := classRowsPartitionTheWords (requestWord sgn bexp frac)
  rw [← finite, covers_classFinite, reqExp_requestWord, reqFrac_requestWord]

theorem classify_requestWord_nan {frac : BitVec 52} (sgn : Bit) (h : frac ≠ 0) :
    classify (requestWord sgn 2047#11 frac) = .nan := by
  obtain ⟨-, -, -, nan, -⟩ := classRowsPartitionTheWords (requestWord sgn 2047#11 frac)
  rw [← nan, covers_classNan, reqExp_requestWord, reqFrac_requestWord]
  exact ⟨rfl, h⟩

theorem classify_requestWord_inf (sgn : Bit) : classify (requestWord sgn 2047#11 0#52) = .inf := by
  obtain ⟨-, -, inf, -, -⟩ := classRowsPartitionTheWords (requestWord sgn 2047#11 0#52)
  rw [← inf, covers_classInf, reqExp_requestWord, reqFrac_requestWord]
  exact ⟨rfl, rfl⟩

theorem classify_requestWord_zero (sgn : Bit) : classify (requestWord sgn 0#11 0#52) = .zero := by
  obtain ⟨-, zero, -, -, -⟩ := classRowsPartitionTheWords (requestWord sgn 0#11 0#52)
  rw [← zero, covers_classZero, reqExp_requestWord, reqFrac_requestWord]
  exact ⟨rfl, rfl⟩

/-- R56: every well-formed term means ENCODE of its word. -/
theorem exec_of_wellFormed {i : Instr} (s : State) (wf : i.wellFormed = true) :
    exec i s = .next (s.complete (encode i) (encodeValue s.inst (encode i))) := by
  cases i with
  | encode w => rfl
  | encodeClassZero sgn =>
    rw [encode, encodeValue_of_zero _ _ (classify_requestWord_zero sgn), signOf, reqSign_requestWord]
    rfl
  | encodeClassInf sgn =>
    rw [encode, encodeValue_of_inf _ _ (classify_requestWord_inf sgn), signOf, reqSign_requestWord]
    rfl
  | encodeClassNan sgn frac =>
    have nonzero : frac ≠ 0 := (wellFormed_encodeClassNan sgn frac).mp wf
    rw [encode, encodeValue_of_nan _ _ (classify_requestWord_nan sgn nonzero), signOf, reqSign_requestWord]
    exact if_neg nonzero
  | encodeClassFinite sgn bexp frac =>
    have finite := (classify_requestWord_finite_iff sgn bexp frac).mpr ((wellFormed_encodeClassFinite ..).mp wf)
    rw [encode, encodeValue_of_finite s.inst ⟨_, finite⟩]
    exact dif_pos finite

/-- Log entry 13: a term that is no word of its row is refused. -/
theorem exec_of_not_wellFormed {i : Instr} (s : State) (wf : i.wellFormed = false) : ∃ r, exec i s = .refused r := by
  cases i with
  | encode w => cases wf
  | encodeClassZero sgn => cases wf
  | encodeClassInf sgn => cases wf
  | encodeClassNan sgn frac =>
    have zero : frac = 0 := by simpa [Instr.wellFormed] using wf
    exact ⟨_, if_pos zero⟩
  | encodeClassFinite sgn bexp frac =>
    have notFinite : ¬ classify (requestWord sgn bexp frac) = .finite := by
      rw [classify_requestWord_finite_iff, ← wellFormed_encodeClassFinite sgn, wf]
      exact Bool.false_ne_true
    exact ⟨_, dif_neg notFinite⟩

/-- Settles O21: this is the meaning of ENCODE. -/
theorem encodeCompletes : Obligations.EncodeCompletes := exec_encode

/-- Settles O26: a well-formed term completes, any other is refused. -/
theorem classRowRefusesExactlyIllFormedTerms : Obligations.ClassRowRefusesExactlyIllFormedTerms := by
  intro i s
  cases wf : i.wellFormed with
  | true => simp [exec_of_wellFormed s wf]
  | false => exact iff_of_true (exec_of_not_wellFormed s wf) rfl

/-- Settles O23: the two words written as sign and constant, and the fixed patterns of R117. -/
theorem zeroAndInfRowsComplete : Obligations.ZeroAndInfRowsComplete := by
  intro sgn s
  have zeroWord : requestWord sgn 0#11 0#52 = sgn ++ 0#63 := by revert sgn; decide
  refine ⟨?_, rfl⟩
  rw [← zeroWord]
  rfl

/-- Settles O24: with a nonzero fraction the row's condition holds. -/
theorem nanRowCompletes : Obligations.NanRowCompletes := fun _ _ _ nonzero => if_neg nonzero

/-- Settles O25: the row's condition makes the term well formed, and a well-formed term means ENCODE of its word. -/
theorem finiteRowCompletes : Obligations.FiniteRowCompletes := by
  intro sgn bexp frac s notOnes notZero
  exact exec_of_wellFormed s ((wellFormed_encodeClassFinite sgn bexp frac).mpr ⟨notOnes, notZero⟩)

/-- Settles O27: the class row covers the word, so its term is well formed and encodes to the word. -/
theorem classRowsAgreeWithEncode : Obligations.ClassRowsAgreeWithEncode := by
  intro w s
  have covered := classRow_covers w
  refine ⟨_, (decodeRow_eq_some_iff _ _ _).mpr ⟨covered, rfl⟩, ?_, ?_⟩
  · rw [rowOf_term]
    exact classRow_ne_encode w
  · rw [exec_of_wellFormed s (term_wellFormed covered), encode_term covered, exec_encode]

/-- Settles O28: the edge writes the result of the held word, which is what the decoded request means. -/
theorem stepRunsTheDecodedRequest : Obligations.StepRunsTheDecodedRequest := by
  intro s i hr hp hw decoded
  obtain rfl := Except.ok.inj decoded
  exact ⟨rfl, step_of_result s hr hp hw⟩

/-- Settles O29: the state that `withFetchWord` makes is at the edge that ends BUSY, with the decoded word in `value_r`. -/
theorem fetchWordRunsNext : Obligations.FetchWordRunsNext := by
  intro s nbits w i decoded
  obtain ⟨-, rfl⟩ := (decodeTableWord_eq_some_iff nbits w i).mp decoded
  exact step_of_result (s.withFetchWord nbits w) rfl rfl rfl

end Sys2Proof.Machine
end

section
/-! SUPPORT. What single edges write (R10, R12 to R16, R170), the data outputs (R34), and the statements about them. -/

namespace Sys2Proof.Machine

/-! ### One edge by its rule -/

/-- Settles O1, from the reset edge and the masked transfers. -/
theorem resetEdgeWritesOnlyThePhase : Obligations.ResetEdgeWritesOnlyThePhase := fun s hr =>
  ⟨step_of_reset s hr, requestTransfer_eq_none_of_reset s hr, responseTransfer_eq_none_of_reset s hr⟩

/-- Settles O2: `State.reset` is the state after reset with the double preset. -/
theorem afterResetThePhaseIsIdle : Obligations.AfterResetThePhaseIsIdle :=
  ⟨State.afterReset_phaseR Instance.double, fun I => ⟨State.afterReset_phaseR I, State.afterReset_inst I⟩⟩

/-- The state after the edge that latches the offered word. -/
def State.latch (s : State) : State :=
  { s with
    valueR := s.sampled.reqValue, waitR := latency s.edge s.inst.layout s.sampled.reqValue - 1, phaseR := .busy,
    inputs := s.inputs.tail, edge := s.edge + 1 }

/-- R13: an edge in IDLE with an offer latches the word. -/
theorem step_of_offer (s : State) (hr : s.sampled.rst = false) (hp : s.phaseR = .idle)
    (offer : s.sampled.reqValid = true) : step s = .next s.latch := by
  rw [step_of_idle s hr hp, s.accept_of_offer offer]
  rfl

/-- R13: an edge in IDLE without an offer only uses up its inputs. -/
theorem step_of_no_offer (s : State) (hr : s.sampled.rst = false) (hp : s.phaseR = .idle)
    (offer : s.sampled.reqValid = false) : step s = .next s.tick := by
  rw [step_of_idle s hr hp, s.accept_of_none offer]

/-- Settles O3, from the two edges of Accept. -/
theorem acceptLatchesTheOfferedWord : Obligations.AcceptLatchesTheOfferedWord := fun s hr hp =>
  ⟨fun offer => ⟨one_le_latency _ _ _, step_of_offer s hr hp offer⟩, step_of_no_offer s hr hp⟩

/-- Settles O4; the edge that writes the result finds the wait at 0 and the word in `value_r` already. -/
theorem computeCountsDownThenWritesTheResult : Obligations.ComputeCountsDownThenWritesTheResult := by
  intro s hr hp
  refine ⟨step_of_wait s hr hp, fun hw => ?_⟩
  rw [step_of_result s hr hp hw]
  simp [State.complete, State.tick, hw]

/-- Settles O9: in DONE the outputs are those of the three result registers and `value_r`. -/
theorem dataOutputsInDone : Obligations.DataOutputsInDone := by
  intro s hp
  have data : s.outputs.data = responseOf s.result s.valueR := dataOut_of_done s hp
  rw [data]
  exact ⟨rfl, rfl, rfl, rfl, rfl, rfl, rfl⟩

/-! ### Which edges write which register (R10) -/

/-- Settles O13. Reset, countdown, Deliver and Hold write neither the result registers nor `value_r`; Accept writes `value_r` where a request
is transferred; the edge that ends BUSY writes the result registers. -/
theorem onlyItsRuleWritesARegister : Obligations.OnlyItsRuleWritesARegister := by
  intro s t h
  obtain ⟨-, rfl⟩ | ⟨hr, hp, rfl⟩ | ⟨-, -, -, rfl⟩ | ⟨hr, hp, hw, rfl⟩ | ⟨-, -, -, rfl⟩ | ⟨-, -, -, rfl⟩ := step_cases h
  case inl => exact ⟨fun _ => ⟨.idle, s.waitR, s.valueR, rfl⟩, fun _ => ⟨.idle, s.waitR, s.result, rfl⟩⟩
  case inr.inl =>
    cases offer : s.sampled.reqValid with
    | true =>
      rw [s.accept_of_offer offer, requestTransfer_of_offer hr hp offer]
      exact ⟨fun _ => ⟨_, _, _, rfl⟩, fun none => by cases none⟩
    | false =>
      rw [s.accept_of_none offer]
      exact ⟨fun _ => ⟨s.phaseR, s.waitR, s.valueR, rfl⟩, fun _ => ⟨s.phaseR, s.waitR, s.result, rfl⟩⟩
  case inr.inr.inl =>
    exact ⟨fun _ => ⟨s.phaseR, s.waitR - 1, s.valueR, rfl⟩, fun _ => ⟨s.phaseR, s.waitR - 1, s.result, rfl⟩⟩
  case inr.inr.inr.inl =>
    exact ⟨fun other => absurd ⟨hr, hp, hw⟩ other, fun _ => ⟨.done, 0, encodeValue s.inst s.valueR, rfl⟩⟩
  case inr.inr.inr.inr.inl => exact ⟨fun _ => ⟨.idle, s.waitR, s.valueR, rfl⟩, fun _ => ⟨.idle, s.waitR, s.result, rfl⟩⟩
  case inr.inr.inr.inr.inr =>
    exact ⟨fun _ => ⟨s.phaseR, s.waitR, s.valueR, rfl⟩, fun _ => ⟨s.phaseR, s.waitR, s.result, rfl⟩⟩

/-- R133: BUSY is entered by a request transfer, of the word then in `value_r`. -/
theorem requestTransfer_of_enters_busy {s t : State} (h : step s = .next t) (before : s.phaseR ≠ .busy)
    (after : t.phaseR = .busy) : s.phaseR = .idle ∧ s.requestTransfer = some t.valueR := by
  obtain ⟨-, rfl⟩ | ⟨hr, hp, rfl⟩ | ⟨-, hp, -, rfl⟩ | ⟨-, hp, -, rfl⟩ | ⟨-, hp, -, rfl⟩ | ⟨-, hp, -, rfl⟩ := step_cases h
  case inr.inl =>
    cases offer : s.sampled.reqValid with
    | true => simp [s.accept_of_offer offer, requestTransfer_of_offer hr hp offer, hp]
    | false => simp [s.accept_of_none offer, hp] at after
  case inl => simp at after
  case inr.inr.inl => exact absurd hp before
  case inr.inr.inr.inl => exact absurd hp before
  all_goals simp [hp] at after

/-- R133: DONE is entered from BUSY when the wait is over. -/
theorem busy_of_enters_done {s t : State} (h : step s = .next t) (before : s.phaseR ≠ .done) (after : t.phaseR = .done) :
    s.phaseR = .busy ∧ s.waitR = 0 ∧ s.sampled.rst = false := by
  obtain ⟨-, rfl⟩ | ⟨-, hp, rfl⟩ | ⟨-, hp, -, rfl⟩ | ⟨hr, hp, hw, rfl⟩ | ⟨-, hp, -, rfl⟩ | ⟨-, hp, -, rfl⟩ := step_cases h
  case inl => simp at after
  case inr.inl => exact absurd after (accept_phaseR_ne_done hp)
  case inr.inr.inl => simp [hp] at after
  case inr.inr.inr.inl => exact ⟨hp, hw, hr⟩
  all_goals exact absurd hp before

/-- R133: IDLE is entered by reset or by a response transfer. -/
theorem reset_or_responseTransfer_of_enters_idle {s t : State} (h : step s = .next t) (before : s.phaseR ≠ .idle)
    (after : t.phaseR = .idle) :
    s.sampled.rst = true ∨ (s.phaseR = .done ∧ s.responseTransfer.isSome = true) := by
  obtain ⟨hr, rfl⟩ | ⟨-, hp, rfl⟩ | ⟨-, hp, -, rfl⟩ | ⟨-, hp, -, rfl⟩ | ⟨hr, hp, ready, rfl⟩ | ⟨-, hp, -, rfl⟩ := step_cases h
  case inl => exact .inl hr
  case inr.inl => exact absurd hp before
  case inr.inr.inr.inr.inl => exact .inr ⟨hp, by simp [responseTransfer_of_deliver s hr hp ready]⟩
  all_goals simp [hp] at after

/-- Settles O14, one lemma per phase that is entered. -/
theorem phaseGoesRoundOneWay : Obligations.PhaseGoesRoundOneWay := fun _ _ h =>
  ⟨requestTransfer_of_enters_busy h, busy_of_enters_done h, reset_or_responseTransfer_of_enters_idle h⟩

end Sys2Proof.Machine
end

section
/-! SUPPORT. A request from its transfer to its response, edge by edge (R14, R40, R131), and the statements about it. -/

namespace Sys2Proof.Machine

/-! ### The host's inputs along a run -/

/-- One edge moves the host's list by one, whatever the edge does. -/
theorem sampledAt_of_step {s t : State} (h : step s = .next t) (j : Nat) : t.sampledAt j = s.sampledAt (j + 1) := by
  obtain ⟨-, rfl⟩ | ⟨-, -, rfl⟩ | ⟨-, -, -, rfl⟩ | ⟨-, -, -, rfl⟩ | ⟨-, -, -, rfl⟩ | ⟨-, -, -, rfl⟩ := step_cases h <;> simp

/-- `k` edges move it by `k`. -/
theorem sampledAt_of_run {k : Nat} {s t : State} (h : run k s = .next t) (j : Nat) :
    t.sampledAt j = s.sampledAt (k + j) := by
  induction k generalizing s with
  | zero =>
    obtain rfl := Host.Outcome.next.inj h
    rw [Nat.zero_add]
  | succ k ih =>
    obtain ⟨u, edge⟩ := step_answers s
    rw [run_succ k edge] at h
    rw [ih h, sampledAt_of_step edge, Nat.add_right_comm]

theorem noReset_of_step {k : Nat} {s t : State} (quiet : s.noReset (k + 1)) (h : step s = .next t) : t.noReset k := by
  intro j hj
  rw [sampledAt_of_step h]
  exact quiet (j + 1) (Nat.succ_lt_succ hj)

theorem noReset_mono {j k : Nat} {s : State} (quiet : s.noReset k) (h : j ≤ k) : s.noReset j :=
  fun i hi => quiet i (hi.trans_le h)

theorem sampled_of_noReset {k : Nat} {s : State} (quiet : s.noReset (k + 1)) : s.sampled.rst = false :=
  quiet 0 k.succ_pos

/-! ### BUSY until the wait is over (R14) -/

/-- The state after `k` edges that only count down. -/
def State.afterWait (s : State) (k : Nat) : State :=
  { s with waitR := s.waitR - k, inputs := s.inputs.drop k, edge := s.edge + k }

/-- R14: while the wait lasts, `k` edges take `k` off it. -/
theorem run_of_wait (k : Nat) (s : State) (hp : s.phaseR = .busy) (hw : k ≤ s.waitR) (quiet : s.noReset k) :
    run k s = .next (s.afterWait k) := by
  induction k generalizing s with
  | zero => rfl
  | succ k ih =>
    have edge := step_of_wait s (sampled_of_noReset quiet) hp (by omega)
    have rest : s.countDown.tick.afterWait k = s.afterWait (k + 1) := by
      simp [State.afterWait, State.countDown, State.tick, Nat.sub_sub, Nat.add_assoc, Nat.add_comm 1 k]
    rw [run_succ k edge, ih s.countDown.tick hp (Nat.le_sub_of_add_le hw) (noReset_of_step quiet edge), rest]

/-- R14: from BUSY the edges of the wait and one more end in DONE with the result of the held word. -/
theorem run_of_busy {n : Nat} (s : State) (hp : s.phaseR = .busy) (hn : s.waitR + 1 = n) (quiet : s.noReset n) :
    run n s = .next ((s.complete s.valueR (encodeValue s.inst s.valueR)).ticks n) := by
  subst hn
  have wait := run_of_wait s.waitR s hp le_rfl (noReset_mono quiet (Nat.le_succ _))
  have hr : (s.afterWait s.waitR).sampled.rst = false := quiet s.waitR (Nat.lt_succ_self _)
  rw [run_add s.waitR 1 wait, run_succ 0 (step_of_result _ hr hp (Nat.sub_self _)), run_zero]
  simp [State.afterWait, State.complete, State.tick, State.ticks, Nat.add_assoc]

/-- R7, R13: the wait that a latched word starts with is its LATENCY less one. -/
theorem latch_waitR_add_one (s : State) :
    s.latch.waitR + 1 = latency s.edge s.inst.layout s.sampled.reqValue :=
  Nat.sub_add_cancel (one_le_latency _ _ _)

/-- R131, R14: a transferred request is in DONE with its result after its LATENCY further edges. -/
theorem run_of_transfer {s : State} {w : Word} {n : Nat} (transfer : s.requestTransfer = some w)
    (hn : n = latency s.edge s.inst.layout w) (quiet : s.noReset (n + 1)) :
    run (n + 1) s = .next ((s.complete w (encodeValue s.inst w)).ticks (n + 1)) := by
  obtain ⟨hr, hp, offer, rfl⟩ := requestTransfer_some transfer
  have edge := step_of_offer s hr hp offer
  rw [run_succ n edge, run_of_busy s.latch rfl ((latch_waitR_add_one s).trans hn.symm) (noReset_of_step quiet edge)]
  simp [State.latch, State.complete, State.ticks, Nat.add_assoc, Nat.add_comm 1]

/-- R14: until then it is in BUSY with the word held. -/
theorem busy_of_transfer {s : State} {w : Word} {n j : Nat} (transfer : s.requestTransfer = some w)
    (hn : n = latency s.edge s.inst.layout w) (quiet : s.noReset (n + 1)) (hj : j + 1 ≤ n) :
    ∃ t, run (j + 1) s = .next t ∧ t.phaseR = .busy ∧ t.valueR = w := by
  obtain ⟨hr, hp, offer, rfl⟩ := requestTransfer_some transfer
  have edge := step_of_offer s hr hp offer
  have hw := latch_waitR_add_one s
  have wait := run_of_wait j s.latch rfl (by omega) (noReset_mono (noReset_of_step quiet edge) (by omega))
  exact ⟨s.latch.afterWait j, (run_succ j edge).trans wait, rfl, rfl⟩

/-- Settles O16, from the run to DONE and the edges in BUSY before. -/
theorem encodeFromTransferToDone : Obligations.EncodeFromTransferToDone := by
  intro s w transfer n hn quiet
  refine ⟨run_of_transfer transfer hn quiet, fun j h1 hj => ?_⟩
  obtain ⟨j, rfl⟩ := Nat.exists_eq_add_of_le' h1
  exact busy_of_transfer transfer hn quiet hj

/-! ### The response (R40, R183) -/

/-- R15, R16: in DONE the response owed to the held word waits for the first edge with `rsp_ready` and is transferred at it. -/
theorem answered_of_done (d : Nat) (s : State) (hp : s.phaseR = .done) (inv : s.Inv) (quiet : s.noReset (d + 1))
    (notReady : ∀ j, j < d → (s.sampledAt j).rspReady = false) (ready : (s.sampledAt d).rspReady = true) :
    (∃ t, run d s = .next t ∧ t.responseTransfer.map (Observed.mk t.inst.layout) = some (owed s.inst s.valueR)) ∧
    (∃ t, run (d + 1) s = .next t ∧ t.phaseR = .idle) := by
  have held := run_of_hold d s hp fun j hj => ⟨quiet j (hj.trans d.lt_succ_self), notReady j hj⟩
  have hr : (s.ticks d).sampled.rst = false := quiet d d.lt_succ_self
  have edge := step_of_deliver (s.ticks d) hr hp ready
  exact ⟨⟨_, held, observed_responseTransfer_of_deliver (s := s.ticks d) inv hr hp ready⟩,
    ⟨_, (run_add d 1 held).trans (run_succ 0 edge), rfl⟩⟩

/-- Settles O17: the request reaches DONE, is held there for the `d` edges without `rsp_ready`, and is delivered at the next. -/
theorem acceptedRequestIsAnswered : Obligations.AcceptedRequestIsAnswered := by
  intro s w d transfer n hn quiet notReady ready
  have toDone := run_of_transfer transfer hn (noReset_mono quiet (by omega))
  have sampled := sampledAt_of_run toDone
  obtain ⟨⟨t, toDeliver, response⟩, ⟨u, toIdle, idle⟩⟩ :=
    answered_of_done d ((s.complete w (encodeValue s.inst w)).ticks (n + 1)) rfl (complete_inv s w)
      (fun j hj => by rw [sampled]; exact quiet _ (by omega))
      (fun j hj => by rw [sampled]; exact notReady _ (by omega) (by omega))
      (by rw [sampled]; exact ready)
  have count : n + d + 2 = n + 1 + (d + 1) := by omega
  exact ⟨⟨t, (run_add _ d toDone).trans toDeliver, response⟩,
    ⟨u, by rw [count, run_add _ (d + 1) toDone, toIdle], idle⟩⟩

end Sys2Proof.Machine
end

section
/-! SUPPORT. What the host sees of a run (HZ1): nothing of stale registers (R19, U21), nothing of a request dropped by reset (R171); and
the statements about it. -/

namespace Sys2Proof.Machine

/-! ### Stale registers (R19, U21) -/

/-- The state with other contents in the result registers. -/
def State.withResult (s : State) (f : Fields s.inst.layout) : State :=
  { s with signR := f.sign, expR := f.exp, manR := f.man }

/-- The state with other contents in every register but the phase. -/
def State.withStale (s : State) (wt : Nat) (v : Word) (f : Fields s.inst.layout) : State :=
  { s with waitR := wt, valueR := v, signR := f.sign, expR := f.exp, manR := f.man }

/-- R33: outside DONE the view of an edge is the handshake outputs alone. -/
theorem view_of_not_done {s : State} (hp : s.phaseR ≠ .done) :
    s.view = { reqReady := s.reqReady, rspValid := s.rspValid, response := none } := by
  rw [State.view, responseTransfer_eq_none_of_not_done hp, Option.map_none]

/-- Two states outside DONE in one phase look alike. -/
theorem view_eq_of_phaseR_eq {s t : State} (same : t.phaseR = s.phaseR) (hp : s.phaseR ≠ .done) : t.view = s.view := by
  rw [view_of_not_done hp, view_of_not_done (same ▸ hp), State.reqReady, State.reqReady, State.rspValid, State.rspValid, same]

/-- Views of a run that starts alike and goes on alike. -/
theorem views_succ_congr {k : Nat} {s s' t t' : State} (now : s'.view = s.view) (edge : step s = .next t)
    (edge' : step s' = .next t') (later : views k t' = views k t) : views (k + 1) s' = views (k + 1) s := by
  rw [views_succ k edge, views_succ k edge', now, later]

/-- R19: one edge in IDLE either keeps the stale contents stale or latches a request over all but the result registers. -/
theorem views_withStale_and_withResult (k : Nat) (s : State) :
    (∀ wt v f, s.phaseR = .idle → views k (s.withStale wt v f) = views k s) ∧
    (∀ f, s.phaseR = .busy → views k (s.withResult f) = views k s) := by
  induction k generalizing s with
  | zero => exact ⟨fun _ _ _ _ => rfl, fun _ _ => rfl⟩
  | succ k ih =>
    constructor
    case left =>
      intro wt v f hp
      have now : (s.withStale wt v f).view = s.view := view_eq_of_phaseR_eq rfl (by simp [hp])
      cases hr : s.sampled.rst with
      | true => exact views_succ_congr now (step_of_reset s hr) (step_of_reset _ hr) ((ih s.resetEdge.tick).1 wt v f rfl)
      | false =>
        cases offer : s.sampled.reqValid with
        | true =>
          exact views_succ_congr now (step_of_offer s hr hp offer) (step_of_offer _ hr hp offer) ((ih s.latch).2 f rfl)
        | false =>
          exact views_succ_congr now (step_of_no_offer s hr hp offer) (step_of_no_offer _ hr hp offer)
            ((ih s.tick).1 wt v f hp)
    case right =>
      intro f hp
      have now : (s.withResult f).view = s.view := view_eq_of_phaseR_eq rfl (by simp [hp])
      cases hr : s.sampled.rst with
      | true =>
        exact views_succ_congr now (step_of_reset s hr) (step_of_reset _ hr) ((ih s.resetEdge.tick).1 s.waitR s.valueR f rfl)
      | false =>
        by_cases hw : 0 < s.waitR
        · exact views_succ_congr now (step_of_wait s hr hp hw) (step_of_wait _ hr hp hw) ((ih s.countDown.tick).2 f hp)
        · have hw : s.waitR = 0 := Nat.eq_zero_of_not_pos hw
          exact views_succ_congr now (step_of_result s hr hp hw) (step_of_result _ hr hp hw) rfl

/-- Settles O19, by induction on the number of edges, for IDLE and BUSY together: IDLE leads to BUSY, where only the result registers are
stale, and BUSY ends by overwriting these. -/
theorem staleRegistersAreNeverSeen : Obligations.StaleRegistersAreNeverSeen := by
  intro k s wt v f
  obtain ⟨idle, busy⟩ := views_withStale_and_withResult k s
  exact ⟨idle wt v f, busy f⟩

/-! ### A request dropped by reset (R171) -/

/-- R13, R170: without an offer an edge in IDLE ends in IDLE. -/
theorem phaseR_of_idle_step {s t : State} (hp : s.phaseR = .idle) (offer : s.sampled.reqValid = false)
    (h : step s = .next t) : t.phaseR = .idle := by
  cases hr : s.sampled.rst with
  | true => exact phaseR_of_reset_step hr h
  | false =>
    rw [step_of_no_offer s hr hp offer] at h
    obtain rfl := Host.Outcome.next.inj h
    exact hp

/-- As long as the host offers nothing, an IDLE block responds nothing. -/
theorem response_eq_none_of_idle (k : Nat) (s : State) (hp : s.phaseR = .idle)
    (noOffer : ∀ j, j < k → (s.sampledAt j).reqValid = false) : ∀ v ∈ views k s, v.response = none := by
  induction k generalizing s with
  | zero => simp
  | succ k ih =>
    obtain ⟨t, edge⟩ := step_answers s
    rw [views_succ k edge, view_of_not_done (by simp [hp])]
    refine List.forall_mem_cons.mpr ⟨rfl, ih t (phaseR_of_idle_step hp (noOffer 0 k.succ_pos) edge) fun j hj => ?_⟩
    rw [sampledAt_of_step edge]
    exact noOffer (j + 1) (Nat.succ_lt_succ hj)

/-- Settles O20: the reset edge transfers nothing and ends in IDLE. -/
theorem resetDropsTheRequestInFlight : Obligations.ResetDropsTheRequestInFlight := by
  intro k s hr noOffer
  rw [views_succ k (step_of_reset s hr)]
  refine List.forall_mem_cons.mpr ⟨?_, response_eq_none_of_idle k _ rfl fun j hj => ?_⟩
  · rw [State.view, responseTransfer_eq_none_of_reset s hr, Option.map_none]
  · rw [State.tick_sampledAt]
    exact noOffer (j + 1) (Nat.le_add_left 1 j) hj

end Sys2Proof.Machine
end

section
/-! SUPPORT. What a request word denotes (R51, R72, R73), its true exponent (R74), and the statements about them. -/

namespace Sys2Proof.Machine

/-! ### The reading of a word by class (R51) -/

theorem wordReading_of_nan {w : Word} (h : classify w = .nan) : wordReading w = .nan := by
  obtain ⟨hE, hF⟩ := (classify_nan_iff w).mp h
  rw [wordReading, if_pos hE, if_neg hF]

theorem wordReading_of_inf {w : Word} (h : classify w = .inf) : wordReading w = .infinity (signOf w) := by
  obtain ⟨hE, hF⟩ := (classify_inf_iff w).mp h
  rw [wordReading, if_pos hE, if_pos hF]

theorem wordReading_of_zero {w : Word} (h : classify w = .zero) : wordReading w = .zero (signOf w) := by
  obtain ⟨hE, hF⟩ := (classify_zero_iff w).mp h
  rw [wordReading, if_neg (by omega), if_pos hE, if_pos hF]

/-- R72, R73: the magnitude of a host-subnormal word. -/
theorem magnitude_of_subnormal (w : FiniteWord) (h : inE w.1 = 0) :
    magnitude w = (inF w.1 : ℚ) * (2 : ℚ) ^ (-1074 : Int) := by
  simp [magnitude, rawSignificand, rawExponent, h]

/-- R72, R73: the magnitude of a host-normal word. -/
theorem magnitude_of_normal (w : FiniteWord) (h : inE w.1 ≠ 0) :
    magnitude w = ((2 ^ 52 + inF w.1 : Nat) : ℚ) * (2 : ℚ) ^ ((inE w.1 : Int) - 1075) := by
  have exponent : (inE w.1 : Int) - 1023 - 52 = inE w.1 - 1075 := by omega
  rw [magnitude, rawSignificand, rawExponent, if_pos h, if_pos h, exponent]

/-- R51: a finite word denotes its magnitude with its sign. -/
theorem wordReading_of_finite (w : FiniteWord) :
    wordReading w.1 = .number (signFactor (signOf w.1) * magnitude w) := by
  obtain ⟨notOnes, notZero⟩ := (classify_finite_iff w.1).mp w.2
  rw [wordReading, if_neg notOnes]
  by_cases hE : inE w.1 = 0
  · rw [if_pos hE, if_neg fun hF => notZero ⟨hE, hF⟩, magnitude_of_subnormal w hE]
  · rw [if_neg hE, magnitude_of_normal w hE]

theorem magnitude_pos (w : FiniteWord) : 0 < magnitude w := by
  have h : (0 : ℚ) < rawSignificand w := by exact_mod_cast (rawSignificand_bounds w).1
  unfold magnitude
  positivity

/-- Settles O34: the reading of each class is known, and the four readings differ. -/
theorem magnitudeIsWhatTheWordDenotes : Obligations.MagnitudeIsWhatTheWordDenotes := by
  refine ⟨fun w => ⟨wordReading_of_finite w, magnitude_pos w⟩, fun w => ?_⟩
  cases h : classify w with
  | nan => simp [wordReading_of_nan h]
  | inf => simp [wordReading_of_inf h]
  | zero => simp [wordReading_of_zero h]
  | finite => simp [wordReading_of_finite ⟨w, h⟩]

/-! ### The true exponent (R74) -/

/-- R74: a host-normal word needs no shift. -/
theorem trueExponent_of_normal (w : FiniteWord) (h : inE w.1 ≠ 0) : trueExponent w = inE w.1 - 1023 := by
  rw [trueExponent, leadingZeros_of_normal w h, rawExponent, if_pos h]
  omega

/-- R74: a host-subnormal word pays for its shift. -/
theorem trueExponent_of_subnormal (w : FiniteWord) (h : inE w.1 = 0) : trueExponent w = -1022 - leadingZeros w := by
  rw [trueExponent, rawExponent, if_neg (not_not.mpr h)]

theorem leadingZeros_le (w : FiniteWord) : leadingZeros w ≤ 52 := Nat.sub_le _ _

/-- R74: the true exponents are those of the binary64 words. -/
theorem trueExponent_bounds (w : FiniteWord) : -1074 ≤ trueExponent w ∧ trueExponent w ≤ 1023 := by
  obtain ⟨notOnes, -⟩ := (classify_finite_iff w.1).mp w.2
  have hE := inE_lt w.1
  have hlz := leadingZeros_le w
  by_cases h : inE w.1 = 0
  · rw [trueExponent_of_subnormal w h]
    omega
  · rw [trueExponent_of_normal w h]
    omega

/-- R90: the normalised significand `m = S / 2^52` lies in `[1, 2)`. -/
theorem unit_significand_bounds {S : Nat} (hlo : 2 ^ 52 ≤ S) (hhi : S < 2 ^ 53) :
    (1 : ℚ) ≤ (S : ℚ) / 2 ^ 52 ∧ (S : ℚ) / 2 ^ 52 < 2 := by
  constructor
  · exact (one_le_div₀ (by positivity)).mpr (by exact_mod_cast hlo)
  · exact (div_lt_iff₀ (by positivity)).mpr (by exact_mod_cast hhi)

/-- Settles O35. With `1 <= m < 2` the magnitude lies in `[2^e, 2^(e+1))`, which fixes `e`, and then `m`. -/
theorem trueExponentIsTheUniqueOne : Obligations.TrueExponentIsTheUniqueOne := by
  intro w
  refine ⟨fun e m => ?_, trueExponent_bounds w⟩
  have hpow : (0 : ℚ) < 2 ^ e := by positivity
  constructor
  case mp =>
    rintro ⟨h1, h2, hm⟩
    have below : ¬ trueExponent w < e := by
      rw [← magnitude_lt_two_zpow_iff, hm, not_lt]
      exact le_mul_of_one_le_left hpow.le h1
    have above : trueExponent w < e + 1 := by
      rw [← magnitude_lt_two_zpow_iff, hm, zpow_add_one₀ two_ne_zero, mul_comm ((2 : ℚ) ^ e)]
      exact mul_lt_mul_of_pos_right h2 hpow
    obtain rfl : e = trueExponent w := by omega
    rw [magnitude_eq] at hm
    exact ⟨rfl, (mul_right_cancel₀ hpow.ne' hm).symm⟩
  case mpr =>
    rintro ⟨rfl, rfl⟩
    obtain ⟨hlo, hhi⟩ := significand_bounds w
    obtain ⟨h1, h2⟩ := unit_significand_bounds hlo hhi
    exact ⟨h1, h2, magnitude_eq w⟩

/-- R72, R73: any shift of the significand is paid for by the exponent. -/
theorem magnitude_eq_shifted (w : FiniteWord) (lz : Nat) :
    magnitude w = ((rawSignificand w * 2 ^ lz : Nat) : ℚ) / 2 ^ 52 * (2 : ℚ) ^ (rawExponent w - (lz : Int)) := by
  rw [magnitude, zpow_sub₀ two_ne_zero, zpow_sub₀ two_ne_zero, zpow_natCast, zpow_ofNat]
  push_cast
  field_simp

/-- R74: any shift that brings `S0` to bit 52 is the shift `lz`, for the exponent it gives is the true one. -/
theorem leadingZeros_unique (w : FiniteWord) {lz : Nat} (hlo : 2 ^ 52 ≤ rawSignificand w * 2 ^ lz)
    (hhi : rawSignificand w * 2 ^ lz < 2 ^ 53) : lz = leadingZeros w := by
  obtain ⟨h1, h2⟩ := unit_significand_bounds hlo hhi
  obtain ⟨exponent, -⟩ := ((trueExponentIsTheUniqueOne w).1 _ _).mp ⟨h1, h2, magnitude_eq_shifted w lz⟩
  unfold trueExponent at exponent
  omega

end Sys2Proof.Machine
end

section
/-! SUPPORT. The exponent field across the ranges (R113 to R117, R137), the sign field (R135), the NaN fields (R117, C8), and the statements
about them. -/

namespace Sys2Proof.Machine

/-! ### The exponent field (R116, R137) -/

/-- Settles O43: the field is that of the upper end of the normal range, and the band is read off the powers of two. -/
theorem allOnesExponentFromFiniteWord : Obligations.AllOnesExponentFromFiniteWord := by
  intro I w
  refine ⟨(overflowBoundary I w).2, ?_⟩
  rw [magnitude_lt_two_zpow_iff, ← not_lt, magnitude_lt_two_zpow_iff, biased]
  omega

/-- R113 to R115: the exponent field is the biased exponent, cut to `0 .. 2^E - 1`. -/
theorem encodeValue_exp_toNat (I : Instance) (w : FiniteWord) :
    ((encodeValue I w.1).exp.toNat : Int) =
      max 0 (min (trueExponent w + I.layout.effBias) (2 ^ I.layout.expBits - 1)) := by
  have hE := two_le_pow_expBits I
  obtain ⟨hbe, -⟩ | ⟨hbe, hover, -⟩ | ⟨hbe, hunder, -⟩ :=
    rangeOf_cases I.layout (trueExponent w + I.layout.effBias)
  case inl =>
    rw [encodeValue_of_subnormal I w hbe, max_eq_left ((min_le_left _ _).trans hbe)]
    rfl
  case inr.inl =>
    have ones : ((encodeValue I w.1).exp.toNat : Int) = 2 ^ I.layout.expBits - 1 := by
      rw [encodeValue_of_overflow I w hover]
      simp [infFields, Machine.ones, Nat.one_le_two_pow]
    rw [ones, min_eq_right (by omega), max_eq_right (by omega)]
  case inr.inr =>
    rw [encodeValue_of_normal I w hbe hunder, ofNat_toNat_of_lt (by omega) hunder, min_eq_left (by omega),
      max_eq_right (by omega)]

/-- R74, R137: a larger magnitude has no smaller true exponent. -/
theorem trueExponent_le_of_magnitude_le {w1 w2 : FiniteWord} (h : magnitude w1 ≤ magnitude w2) :
    trueExponent w1 ≤ trueExponent w2 := by
  have above : magnitude w2 < (2 : ℚ) ^ (trueExponent w2 + 1) := (magnitude_lt_two_zpow_iff w2 _).mpr (by omega)
  have := (magnitude_lt_two_zpow_iff w1 _).mp (h.trans_lt above)
  omega

/-- Settles O47: the true exponent is monotone, and so is cutting the biased one to the field. -/
theorem exponentFieldIsMonotone : Obligations.ExponentFieldIsMonotone := by
  intro I w1 w2 h
  have he := trueExponent_le_of_magnitude_le h
  have h1 := encodeValue_exp_toNat I w1
  have h2 := encodeValue_exp_toNat I w2
  omega

/-! ### The sign field (R135) -/

/-- R130: the sign field is the sign of the word, in every class. -/
theorem encodeValue_sign (I : Instance) (w : Word) : (encodeValue I w).sign = signOf w := by
  cases h : classify w with
  | nan => rw [encodeValue_of_nan I w h]; rfl
  | inf => rw [encodeValue_of_inf I w h]; rfl
  | zero => rw [encodeValue_of_zero I w h]; rfl
  | finite => exact encodeValue_sign_of_finite I ⟨w, h⟩

/-- R71: the class is a function of the exponent and the fraction field. -/
theorem classify_congr {w w' : Word} (hE : inE w' = inE w) (hF : inF w' = inF w) : classify w' = classify w := by
  rw [classify, classify, hE, hF]

/-- R72 to R74, R90: so are the significand and the true exponent. -/
theorem rawSignificand_congr {w w' : FiniteWord} (hE : inE w'.1 = inE w.1) (hF : inF w'.1 = inF w.1) :
    rawSignificand w' = rawSignificand w := by
  rw [rawSignificand, rawSignificand, hE, hF]

theorem significand_congr {w w' : FiniteWord} (hE : inE w'.1 = inE w.1) (hF : inF w'.1 = inF w.1) :
    significand w' = significand w := by
  rw [significand, significand, leadingZeros, leadingZeros, rawSignificand_congr hE hF]

theorem trueExponent_congr {w w' : FiniteWord} (hE : inE w'.1 = inE w.1) (hF : inF w'.1 = inF w.1) :
    trueExponent w' = trueExponent w := by
  rw [trueExponent, trueExponent, leadingZeros, leadingZeros, rawSignificand_congr hE hF, rawExponent, rawExponent, hE]

/-- R135: words that agree in exponent and fraction field get the same fields but for the sign. -/
theorem encodeValue_congr (I : Instance) {w w' : Word} (hE : inE w' = inE w) (hF : inF w' = inF w) :
    encodeValue I w' = { encodeValue I w with sign := signOf w' } := by
  have same := classify_congr hE hF
  cases h : classify w with
  | nan => rw [encodeValue_of_nan I w h, encodeValue_of_nan I w' (same.trans h)]; rfl
  | inf => rw [encodeValue_of_inf I w h, encodeValue_of_inf I w' (same.trans h)]; rfl
  | zero => rw [encodeValue_of_zero I w h, encodeValue_of_zero I w' (same.trans h)]; rfl
  | finite =>
    have hS := significand_congr (w := ⟨w, h⟩) (w' := ⟨w', same.trans h⟩) hE hF
    have he := trueExponent_congr (w := ⟨w, h⟩) (w' := ⟨w', same.trans h⟩) hE hF
    rw [encodeValue_of_finite I ⟨w, h⟩, encodeValue_of_finite I ⟨w', same.trans h⟩, finiteFields, finiteFields, hS, he]

/-- Flipping bit 63 leaves a slice below it alone. -/
theorem extractLsb'_flip (w : Word) {start len : Nat} (h : start + len ≤ 63) :
    (w ^^^ 0x8000000000000000#64).extractLsb' start len = w.extractLsb' start len := by
  apply BitVec.eq_of_getLsbD_eq
  intro i hi
  have below : (0x8000000000000000#64).getLsbD (start + i) = false := by
    rw [show (0x8000000000000000#64) = BitVec.twoPow 64 63 by decide, BitVec.getLsbD_twoPow]
    simp
    omega
  simp [BitVec.getLsbD_extractLsb', below]

/-- Flipping bit 63 complements the sign. -/
theorem signOf_flip (w : Word) : signOf (w ^^^ 0x8000000000000000#64) = ~~~ signOf w := by
  apply BitVec.eq_of_getLsbD_eq
  intro i hi
  obtain rfl : i = 0 := by omega
  simp [signOf, reqSign]

/-- Settles O46: the flip leaves exponent and fraction field alone, and complements the sign. -/
theorem signFidelity : Obligations.SignFidelity := by
  intro I w
  have hE : inE (w ^^^ 0x8000000000000000#64) = inE w := congrArg BitVec.toNat (extractLsb'_flip w (by decide))
  have hF : inF (w ^^^ 0x8000000000000000#64) = inF w := congrArg BitVec.toNat (extractLsb'_flip w (by decide))
  refine ⟨encodeValue_sign I w, ?_⟩
  rw [encodeValue_congr I hE hF, signOf_flip, encodeValue_sign]

/-! ### The NaN fields (R117, C8) -/

/-- C8: without mantissa bits a NaN has the pattern of an infinity. -/
theorem nanFields_eq_infFields {I : Instance} (hM : I.layout.manBits = 0) (sgn : Bit) :
    nanFields I sgn = infFields I.layout sgn := by
  have man : I.nanMantissa = zeros I.layout.manBits := by
    have empty : I.nanMantissa.toNat < 1 := I.nanMantissa.isLt.trans_eq (by rw [hM, Nat.pow_zero])
    apply BitVec.eq_of_toNat_eq
    rw [Nat.lt_one_iff.mp empty, zeros, BitVec.toNat_ofNat, Nat.zero_mod]
  rw [nanFields, infFields, man]

/-- Settles O51: the fields of a NaN depend on its sign alone. -/
theorem nanPayloadIsIgnored : Obligations.NanPayloadIsIgnored := by
  intro I w nan
  rw [encodeValue_of_nan I w nan]
  refine ⟨fun w' nan' same => ?_, fun hM => ?_, fun hM w' inf same => ?_⟩
  · rw [encodeValue_of_nan I w' nan', same]
  · exact I.nanAllowed.resolve_left (by omega)
  · rw [encodeValue_of_inf I w' inf, same, nanFields_eq_infFields hM]

end Sys2Proof.Machine
end

section
/-! SUPPORT. The two mantissa fields as numbers and as digit strings (R92 to R97, R141), the document's loops (R76, R92, R132), and the
statements about them. -/

namespace Sys2Proof.Machine

/-! ### Repeated doubling (R92) -/

/-- R92: each round emits the integer bit of `2 q` and goes on with its fraction. -/
theorem extractBits_toNat (n : Nat) (q : ℚ) (h0 : 0 ≤ q) (h1 : q < 1) : (extractBits n q).toNat = ⌊q * 2 ^ n⌋₊ := by
  induction n generalizing q with
  | zero => simp [extractBits, Nat.floor_eq_zero.mpr h1]
  | succ n ih =>
    by_cases bit : 1 ≤ 2 * q
    · have split : q * 2 ^ (n + 1) = (2 * q - 1) * 2 ^ n + ((2 ^ n : Nat) : ℚ) := by push_cast; ring
      have pos : 0 ≤ (2 * q - 1) * 2 ^ n := mul_nonneg (by linarith) (by positivity)
      rw [extractBits, if_pos bit, BitVec.toNat_cons', ih _ (by linarith) (by linarith), split,
        Nat.floor_add_natCast pos, Bool.toNat_true, Nat.one_shiftLeft, Nat.add_comm]
    · have split : q * 2 ^ (n + 1) = 2 * q * 2 ^ n := by ring
      rw [extractBits, if_neg bit, BitVec.toNat_cons', ih _ (by linarith) (by linarith), split, Bool.toNat_false,
        Nat.zero_shiftLeft, Nat.zero_add]

/-- Settles O38, by induction on the number of rounds. -/
theorem repeatedDoublingIsFloor : Obligations.RepeatedDoublingIsFloor := extractBits_toNat

/-- R91: the significand is the implicit bit and the fraction, over the rationals. -/
theorem cast_significand_eq {S : Nat} (hlo : 2 ^ 52 ≤ S) : (S : ℚ) = 2 ^ 52 + (fraction S : ℚ) := by
  have split : S = 2 ^ 52 + fraction S := (Nat.add_sub_cancel' hlo).symm
  calc (S : ℚ) = ((2 ^ 52 + fraction S : Nat) : ℚ) := by rw [← split]
    _ = 2 ^ 52 + (fraction S : ℚ) := by push_cast; rfl

/-- R93: the normal field is the repeated doubling of `m - 1`. -/
theorem mantissaNormal_eq_extractBits (M : Nat) {S : Nat} (hlo : 2 ^ 52 ≤ S) (hhi : S < 2 ^ 53) :
    mantissaNormal M S = extractBits M ((S : ℚ) / 2 ^ 52 - 1) := by
  obtain ⟨h1, h2⟩ := unit_significand_bounds hlo hhi
  have quotient : ((S : ℚ) / 2 ^ 52 - 1) * 2 ^ M = ((fraction S * 2 ^ M : Nat) : ℚ) / ((2 ^ 52 : Nat) : ℚ) := by
    rw [cast_significand_eq hlo]
    push_cast
    ring
  apply BitVec.eq_of_toNat_eq
  rw [mantissaNormal_toNat M S hlo hhi, extractBits_toNat M _ (by linarith) (by linarith), quotient,
    Nat.floor_div_eq_div]

/-- R94: the subnormal field is the repeated doubling of `m / 2^sh`. -/
theorem mantissaSubnormal_eq_extractBits (M : Nat) {S sh : Nat} (hlo : 2 ^ 52 ≤ S) (hhi : S < 2 ^ 53) (hsh : 1 ≤ sh) :
    mantissaSubnormal M S sh = extractBits M ((S : ℚ) / 2 ^ 52 / 2 ^ sh) := by
  obtain ⟨-, h2⟩ := unit_significand_bounds hlo hhi
  have shifted : (2 : ℚ) ≤ 2 ^ sh := le_self_pow₀ one_le_two (by omega)
  have below : (S : ℚ) / 2 ^ 52 / 2 ^ sh < 1 := (div_lt_one (by positivity)).mpr (h2.trans_le shifted)
  have quotient : (S : ℚ) / 2 ^ 52 / 2 ^ sh * 2 ^ M = ((S * 2 ^ M : Nat) : ℚ) / ((2 ^ (52 + sh) : Nat) : ℚ) := by
    push_cast
    rw [pow_add, div_div]
    ring
  apply BitVec.eq_of_toNat_eq
  rw [mantissaSubnormal_toNat M S sh hhi hsh, extractBits_toNat M _ (by positivity) below, quotient,
    Nat.floor_div_eq_div]

/-- Settles O39, field by field. -/
theorem mantissaFieldsAreRepeatedDoubling : Obligations.MantissaFieldsAreRepeatedDoubling := fun M _ hlo hhi =>
  ⟨mantissaNormal_eq_extractBits M hlo hhi, fun _ hsh => mantissaSubnormal_eq_extractBits M hlo hhi hsh⟩

/-! ### The properties of the two fields (R97) -/

/-- R97 (c): the subnormal field is flushed to zero exactly when the shift passes the field's width. -/
theorem mantissaSubnormal_eq_zero_iff (M S sh : Nat) (hlo : 2 ^ 52 ≤ S) (hhi : S < 2 ^ 53) (hsh : 1 ≤ sh) :
    mantissaSubnormal M S sh = 0 ↔ M < sh := by
  rw [← BitVec.toNat_inj, mantissaSubnormal_toNat M S sh hhi hsh, BitVec.ofNat_eq_ofNat, BitVec.toNat_zero,
    Nat.div_eq_zero_iff_lt (Nat.two_pow_pos _)]
  constructor
  case mp =>
    intro small
    have powers : 2 ^ (52 + M) < 2 ^ (52 + sh) := by
      rw [Nat.pow_add]
      exact (Nat.mul_le_mul_right _ hlo).trans_lt small
    have := (Nat.pow_lt_pow_iff_right (by decide)).mp powers
    omega
  case mpr =>
    intro flushed
    calc S * 2 ^ M < 2 ^ 53 * 2 ^ M := Nat.mul_lt_mul_of_pos_right hhi (Nat.two_pow_pos M)
      _ = 2 ^ (53 + M) := (Nat.pow_add 2 53 M).symm
      _ ≤ 2 ^ (52 + sh) := Nat.pow_le_pow_right (by decide) (by omega)

/-- R93: from 52 mantissa bits on, the normal field keeps the whole fraction. -/
theorem mantissaNormal_toNat_of_le {M S : Nat} (hM : 52 ≤ M) (hlo : 2 ^ 52 ≤ S) (hhi : S < 2 ^ 53) :
    (mantissaNormal M S).toNat = fraction S * 2 ^ (M - 52) := by
  obtain ⟨k, rfl⟩ := Nat.exists_eq_add_of_le hM
  rw [mantissaNormal_toNat _ S hlo hhi, Nat.pow_add, Nat.mul_left_comm, Nat.mul_div_cancel_left _ (Nat.two_pow_pos 52),
    Nat.add_sub_cancel_left]

/-- R97 (d): then it determines the significand. -/
theorem mantissaNormal_injective {M S S' : Nat} (hM : 52 ≤ M) (hlo : 2 ^ 52 ≤ S) (hhi : S < 2 ^ 53) (hlo' : 2 ^ 52 ≤ S')
    (hhi' : S' < 2 ^ 53) (same : mantissaNormal M S = mantissaNormal M S') : S = S' := by
  have numbers := congrArg BitVec.toNat same
  rw [mantissaNormal_toNat_of_le hM hlo hhi, mantissaNormal_toNat_of_le hM hlo' hhi'] at numbers
  have fractions := Nat.eq_of_mul_eq_mul_right (Nat.two_pow_pos _) numbers
  unfold fraction at fractions
  omega

/-- R97 (e): a subnormal field with room for every bit is exact. -/
theorem mantissaSubnormal_toNat_of_le {M S sh : Nat} (hhi : S < 2 ^ 53) (hsh : 1 ≤ sh) (hM : 52 + sh ≤ M) :
    (mantissaSubnormal M S sh).toNat = S * 2 ^ (M - 52 - sh) := by
  obtain ⟨k, rfl⟩ := Nat.exists_eq_add_of_le hM
  have exponent : 52 + sh + k - 52 - sh = k := by omega
  rw [mantissaSubnormal_toNat _ S sh hhi hsh, Nat.pow_add 2 (52 + sh), Nat.mul_left_comm,
    Nat.mul_div_cancel_left _ (Nat.two_pow_pos _), exponent]

/-- Settles O40, from the quotients that the two fields are. -/
theorem mantissaNormalizerProperties : Obligations.MantissaNormalizerProperties := by
  refine ⟨fun M S S' hlo hle hhi => ⟨?monotoneNormal, fun sh hsh => ?monotoneSubnormal⟩,
    fun M S sh sh' _ hhi hsh hle => ?antitone, mantissaSubnormal_eq_zero_iff,
    fun M S S' hM hlo hhi hlo' hhi' => mantissaNormal_injective hM hlo hhi hlo' hhi',
    fun M S sh _ hhi hsh hM => mantissaSubnormal_toNat_of_le hhi hsh hM⟩
  case monotoneNormal =>
    rw [mantissaNormal_toNat M S hlo (hle.trans_lt hhi), mantissaNormal_toNat M S' (hlo.trans hle) hhi]
    exact Nat.div_le_div_right (Nat.mul_le_mul_right _ (Nat.sub_le_sub_right hle _))
  case monotoneSubnormal =>
    rw [mantissaSubnormal_toNat M S sh (hle.trans_lt hhi) hsh, mantissaSubnormal_toNat M S' sh hhi hsh]
    exact Nat.div_le_div_right (Nat.mul_le_mul_right _ hle)
  case antitone =>
    rw [mantissaSubnormal_toNat M S sh hhi hsh, mantissaSubnormal_toNat M S sh' hhi (hsh.trans hle)]
    exact Nat.div_le_div_left (Nat.pow_le_pow_right (by decide) (Nat.add_le_add_left hle 52)) (Nat.two_pow_pos _)

/-- R141: cutting a normal field short is truncating it earlier. -/
theorem mantissaNormal_eq_extractLsb' {M M' S : Nat} (hlo : 2 ^ 52 ≤ S) (hhi : S < 2 ^ 53) (hle : M ≤ M') :
    mantissaNormal M S = (mantissaNormal M' S).extractLsb' (M' - M) M := by
  have cut : fraction S * 2 ^ M' / 2 ^ 52 / 2 ^ (M' - M) = fraction S * 2 ^ M / 2 ^ 52 := by
    have power : 2 ^ M' = 2 ^ M * 2 ^ (M' - M) := by rw [← Nat.pow_add, Nat.add_sub_cancel' hle]
    rw [Nat.div_div_eq_div_mul, power, ← Nat.mul_assoc, Nat.mul_div_mul_right _ _ (Nat.two_pow_pos _)]
  apply BitVec.eq_of_toNat_eq
  rw [BitVec.extractLsb'_toNat, Nat.shiftRight_eq_div_pow, mantissaNormal_toNat M' S hlo hhi, cut,
    ← mantissaNormal_toNat M S hlo hhi, Nat.mod_eq_of_lt (mantissaNormal M S).isLt]

/-! ### The normalising loop (R76) -/

/-- R76: the doubling loop stops at once where `m >= 1`. -/
theorem doubleUp_of_one_le (n : Nat) {m : ℚ} (e : Int) (h : 1 ≤ m) : doubleUp n m e = (m, e) := by
  cases n with
  | zero => rfl
  | succ n => rw [doubleUp, if_neg h.not_gt]

/-- R76: from `m / 2^j` the doubling loop takes `j` rounds. -/
theorem doubleUp_div (j n : Nat) {m : ℚ} (e : Int) (h1 : 1 ≤ m) (h2 : m < 2) (hn : j ≤ n) :
    doubleUp n (m / 2 ^ j) e = (m, e - j) := by
  induction j generalizing n e with
  | zero => simp [doubleUp_of_one_le n e h1]
  | succ j ih =>
    obtain ⟨n, rfl⟩ := Nat.exists_eq_add_of_le' (Nat.one_le_of_lt hn)
    have small : m / 2 ^ (j + 1) < 1 := (div_lt_one (by positivity)).mpr (h2.trans_le (le_self_pow₀ one_le_two (by omega)))
    have doubled : m / 2 ^ (j + 1) * 2 = m / 2 ^ j := by rw [pow_succ]; field_simp
    rw [doubleUp, if_pos small, doubled, ih n (e - 1) (by omega), Nat.cast_succ, sub_sub, add_comm 1]

/-- R76: the halving loop stops at once where `m < 2`. -/
theorem halveDown_of_lt_two (n : Nat) {m : ℚ} (e : Int) (h : m < 2) : halveDown n m e = (m, e) := by
  cases n with
  | zero => rfl
  | succ n => rw [halveDown, if_neg h.not_ge]

/-- R76: from `m * 2^j` the halving loop takes `j` rounds. -/
theorem halveDown_mul (j n : Nat) {m : ℚ} (e : Int) (h1 : 1 ≤ m) (h2 : m < 2) (hn : j ≤ n) :
    halveDown n (m * 2 ^ j) e = (m, e + j) := by
  induction j generalizing n e with
  | zero => simp [halveDown_of_lt_two n e h2]
  | succ j ih =>
    obtain ⟨n, rfl⟩ := Nat.exists_eq_add_of_le' (Nat.one_le_of_lt hn)
    have large : 2 ≤ m * 2 ^ (j + 1) :=
      (le_self_pow₀ one_le_two j.succ_ne_zero).trans (le_mul_of_one_le_left (by positivity) h1)
    have halved : m * 2 ^ (j + 1) / 2 = m * 2 ^ j := by rw [pow_succ]; ring
    rw [halveDown, if_pos large, halved, ih n (e + 1) (by omega), Nat.cast_succ, add_assoc, add_comm 1]

/-- R76: with enough fuel the two loops take `m * 2^e` apart. -/
theorem normaliseLoop_mul_zpow {fuel : Nat} {m : ℚ} {e : Int} (h1 : 1 ≤ m) (h2 : m < 2) (hfuel : e.natAbs ≤ fuel) :
    normaliseLoop fuel (m * 2 ^ e) = (m, e) := by
  obtain ⟨j, rfl | rfl⟩ := e.eq_nat_or_neg
  · have big : 1 ≤ m * 2 ^ j := one_le_mul_of_one_le_of_one_le h1 (one_le_pow₀ one_le_two)
    rw [zpow_natCast, normaliseLoop, doubleUp_of_one_le fuel 0 big, halveDown_mul j fuel 0 h1 h2 (by omega), zero_add]
  · rw [zpow_neg, zpow_natCast, ← div_eq_mul_inv, normaliseLoop, doubleUp_div j fuel 0 h1 h2 (by omega), zero_sub,
      halveDown_of_lt_two fuel _ h2]

/-- Settles O37: the magnitude is `m * 2^e`, and `|e| <= 1074`. -/
theorem normalisingLoopFindsTheExponent : Obligations.NormalisingLoopFindsTheExponent := by
  intro w fuel hfuel
  obtain ⟨hlo, hhi⟩ := significand_bounds w
  obtain ⟨h1, h2⟩ := unit_significand_bounds hlo hhi
  obtain ⟨least, greatest⟩ := trueExponent_bounds w
  rw [magnitude_eq, normaliseLoop_mul_zpow h1 h2 (by omega)]

/-! ### The document's algorithm (R130, R132) -/

/-- R112: in the subnormal range the shift is at least 1. -/
theorem one_le_subnormalShift {be : Int} (h : be ≤ 0) : 1 ≤ subnormalShift be := by
  unfold subnormalShift
  omega

/-- The document's steps 3 to 5 are the FINITE branch of R130: the loops are replaced by their closed forms, range by range. -/
theorem documentFinite_eq_encodeValue (I : Instance) (w : FiniteWord) :
    documentFinite I.layout w = encodeValue I w.1 := by
  obtain ⟨hlo, hhi⟩ := significand_bounds w
  rw [documentFinite, normalisingLoopFindsTheExponent w loopFuel le_rfl]
  obtain ⟨hbe, -⟩ | ⟨hbe, hover, -⟩ | ⟨hbe, hunder, -⟩ := rangeOf_cases I.layout (trueExponent w + I.layout.effBias)
  case inl =>
    rw [encodeValue_of_subnormal I w hbe, mantissaSubnormal_eq_extractBits _ hlo hhi (one_le_subnormalShift hbe)]
    exact if_pos hbe
  case inr.inl =>
    rw [encodeValue_of_overflow I w hover]
    exact (if_neg (by omega)).trans (if_pos hover)
  case inr.inr =>
    rw [encodeValue_of_normal I w hbe hunder, mantissaNormal_eq_extractBits _ hlo hhi]
    exact (if_neg (by omega)).trans (if_neg (by omega))

/-- Settles O41: the document and R130 make the same class test, and agree on a finite word. -/
theorem documentAlgorithmAgrees : Obligations.DocumentAlgorithmAgrees := by
  intro I w
  unfold documentEncode
  split
  next nan => exact (encodeValue_of_nan I w nan).symm
  next inf => exact (encodeValue_of_inf I w inf).symm
  next zero => exact (encodeValue_of_zero I w zero).symm
  next finite => exact documentFinite_eq_encodeValue I ⟨w, finite⟩

end Sys2Proof.Machine
end

section
/-! SUPPORT. Results read back by the standard rules (R95, R134), the example 13.375 (R134, R141), the double layout (R143), the whole function
from the bits of the word (R130), and the statements about them. -/

namespace Sys2Proof.Machine

/-! ### Truncation (R95) -/

/-- R95: `M` bits of a fraction `a / 2^b`, truncated, lie less than one unit of the last bit below it. -/
theorem truncation_error (a b M : Nat) :
    ((a * 2 ^ M / 2 ^ b : Nat) : ℚ) / 2 ^ M ≤ (a : ℚ) / 2 ^ b ∧
      (a : ℚ) / 2 ^ b - ((a * 2 ^ M / 2 ^ b : Nat) : ℚ) / 2 ^ M < 1 / 2 ^ M := by
  have hM : (0 : ℚ) < 2 ^ M := by positivity
  have scaled : (a : ℚ) / 2 ^ b = ((a * 2 ^ M : Nat) : ℚ) / ((2 ^ b : Nat) : ℚ) / 2 ^ M := by
    push_cast
    field_simp
  have below : ((a * 2 ^ M / 2 ^ b : Nat) : ℚ) ≤ ((a * 2 ^ M : Nat) : ℚ) / ((2 ^ b : Nat) : ℚ) := Nat.cast_div_le
  have above := Nat.lt_floor_add_one (((a * 2 ^ M : Nat) : ℚ) / ((2 ^ b : Nat) : ℚ))
  rw [Nat.floor_div_eq_div] at above
  rw [scaled]
  constructor
  · exact div_le_div_of_nonneg_right below hM.le
  · rw [← sub_div]
    exact div_lt_div_of_pos_right (by linarith) hM

/-! ### Reading a result back (R134) -/

/-- R134: a normal result below the all-ones exponent reads as `(1 + man / 2^M) * 2^e`. -/
theorem readFields_of_normal (I : Instance) (w : FiniteWord) (hlo : 1 ≤ trueExponent w + I.layout.effBias)
    (hhi : trueExponent w + I.layout.effBias ≤ 2 ^ I.layout.expBits - 2) :
    readFields (encodeValue I w.1) = .number (signFactor (signOf w.1) *
      ((1 + ((mantissaNormal I.layout.manBits (significand w)).toNat : ℚ) / 2 ^ I.layout.manBits) *
        (2 : ℚ) ^ trueExponent w)) := by
  have field := ofNat_toNat_of_lt (n := I.layout.expBits) (x := trueExponent w + I.layout.effBias) (by omega) (by omega)
  have notOnes : ¬ (BitVec.ofNat I.layout.expBits (trueExponent w + I.layout.effBias).toNat).toNat =
      2 ^ I.layout.expBits - 1 := by
    zify [Nat.one_le_two_pow]
    rw [field]
    omega
  have notZero : ¬ (BitVec.ofNat I.layout.expBits (trueExponent w + I.layout.effBias).toNat).toNat = 0 := by
    zify
    rw [field]
    omega
  rw [encodeValue_of_normal I w hlo (by omega), readFields, if_neg notOnes, if_neg notZero, field, add_sub_cancel_right]

/-- R134: a subnormal result reads as `man / 2^M * 2^(1 - bias)`, or as the zero of its sign. -/
theorem readFields_of_subnormal {L : Layout} (valid : L.Valid) (sgn : Bit) (man : BitVec L.manBits) :
    readFields { sign := sgn, exp := 0, man := man : Fields L } =
      if man.toNat = 0 then .zero sgn
      else .number (signFactor sgn * ((man.toNat : ℚ) / 2 ^ L.manBits * (2 : ℚ) ^ (1 - L.effBias))) := by
  have two : 2 ^ 1 ≤ 2 ^ L.expBits := Nat.pow_le_pow_right (by decide) valid.1
  have zero : (0 : BitVec L.expBits).toNat = 0 := BitVec.toNat_zero
  have notOnes : ¬ (0 : BitVec L.expBits).toNat = 2 ^ L.expBits - 1 := by omega
  exact (if_neg notOnes).trans (if_pos zero)

/-- R134: what a normal result loses of the magnitude. -/
theorem magnitude_sub_normal (w : FiniteWord) (M : Nat) :
    magnitude w - (1 + ((mantissaNormal M (significand w)).toNat : ℚ) / 2 ^ M) * (2 : ℚ) ^ trueExponent w =
      ((fraction (significand w) : ℚ) / 2 ^ 52 - ((fraction (significand w) * 2 ^ M / 2 ^ 52 : Nat) : ℚ) / 2 ^ M) *
        (2 : ℚ) ^ trueExponent w := by
  obtain ⟨hlo, hhi⟩ := significand_bounds w
  rw [magnitude_eq, mantissaNormal_toNat M _ hlo hhi, cast_significand_eq hlo]
  ring

/-- R134: what a subnormal result loses of the magnitude. -/
theorem magnitude_sub_subnormal (w : FiniteWord) (M : Nat) (bias : Int) (hbe : trueExponent w + bias ≤ 0) :
    magnitude w -
        ((mantissaSubnormal M (significand w) (subnormalShift (trueExponent w + bias))).toNat : ℚ) / 2 ^ M *
          (2 : ℚ) ^ (1 - bias) =
      ((significand w : ℚ) / 2 ^ (52 + subnormalShift (trueExponent w + bias)) -
        ((significand w * 2 ^ M / 2 ^ (52 + subnormalShift (trueExponent w + bias)) : Nat) : ℚ) / 2 ^ M) *
        (2 : ℚ) ^ (1 - bias) := by
  obtain ⟨-, hhi⟩ := significand_bounds w
  have hsh := one_le_subnormalShift hbe
  have exponent : trueExponent w = 1 - bias - (subnormalShift (trueExponent w + bias) : Int) := by
    unfold subnormalShift
    omega
  have power : (2 : ℚ) ^ trueExponent w = 2 ^ (1 - bias) / 2 ^ subnormalShift (trueExponent w + bias) := by
    rw [← zpow_natCast, ← zpow_sub₀ two_ne_zero, ← exponent]
  rw [magnitude_eq, mantissaSubnormal_toNat M _ _ hhi hsh, power, pow_add]
  ring

/-- A loss of less than one unit of the last of `M` bits, scaled by `2^e`. -/
theorem scaled_truncation_error (a b M : Nat) (e : Int) :
    0 ≤ ((a : ℚ) / 2 ^ b - ((a * 2 ^ M / 2 ^ b : Nat) : ℚ) / 2 ^ M) * (2 : ℚ) ^ e ∧
      ((a : ℚ) / 2 ^ b - ((a * 2 ^ M / 2 ^ b : Nat) : ℚ) / 2 ^ M) * (2 : ℚ) ^ e < (2 : ℚ) ^ (e - (M : Int)) := by
  obtain ⟨below, above⟩ := truncation_error a b M
  have hpow : (0 : ℚ) < 2 ^ e := by positivity
  have unit : (2 : ℚ) ^ (e - (M : Int)) = 1 / 2 ^ M * 2 ^ e := by
    rw [zpow_sub₀ two_ne_zero, zpow_natCast]
    ring
  rw [unit]
  exact ⟨mul_nonneg (sub_nonneg.mpr below) hpow.le, mul_lt_mul_of_pos_right above hpow⟩

/-- Settles O48: each range reads back as the magnitude less what truncation drops. -/
theorem truncationErrorBound : Obligations.TruncationErrorBound := by
  rintro I w be rfl
  constructor
  case left =>
    intro hlo hhi
    refine ⟨_, readFields_of_normal I w hlo hhi, ?_⟩
    rw [magnitude_sub_normal]
    exact scaled_truncation_error _ _ _ _
  case right =>
    intro hbe
    refine ⟨((mantissaSubnormal I.layout.manBits (significand w)
      (subnormalShift (trueExponent w + I.layout.effBias))).toNat : ℚ) / 2 ^ I.layout.manBits *
        (2 : ℚ) ^ (1 - I.layout.effBias), ?_, ?_⟩
    · rw [encodeValue_of_subnormal I w hbe, readFields_of_subnormal I.layoutValid]
      have hpow : (2 : ℚ) ^ (1 - I.layout.effBias) ≠ 0 := by positivity
      simp [hpow]
    · rw [magnitude_sub_subnormal w _ _ hbe]
      exact scaled_truncation_error _ _ _ _

/-- R91: the fraction of a host-normal word is its fraction field. -/
theorem fraction_of_normal (w : FiniteWord) (h : inE w.1 ≠ 0) : fraction (significand w) = inF w.1 := by
  rw [significand_of_normal w h, rawSignificand, if_pos h]
  exact Nat.add_sub_cancel_left ..

/-! ### The example 13.375 (R134, R141) -/

/-- 13.375 as a request word. -/
def exampleWord : FiniteWord := ⟨0x402AC00000000000#64, by decide⟩

theorem exampleWord_inE : inE exampleWord.1 = 1026 := by decide

theorem exampleWord_inF : inF exampleWord.1 = 43 * 2 ^ 46 := by decide

theorem exampleWord_normal : inE exampleWord.1 ≠ 0 := by rw [exampleWord_inE]; decide

theorem exampleWord_trueExponent : trueExponent exampleWord = 3 := by
  rw [trueExponent_of_normal _ exampleWord_normal, exampleWord_inE]
  rfl

theorem exampleWord_fraction : fraction (significand exampleWord) = 43 * 2 ^ 46 :=
  (fraction_of_normal _ exampleWord_normal).trans exampleWord_inF

/-- R93: from 6 mantissa bits on, the field of 13.375 holds all of its fraction `43 / 64`. -/
theorem exampleWord_mantissa (k : Nat) : (mantissaNormal (6 + k) (significand exampleWord)).toNat = 43 * 2 ^ k := by
  obtain ⟨hlo, hhi⟩ := significand_bounds exampleWord
  have scaled : 43 * 2 ^ 46 * 2 ^ (6 + k) = 2 ^ 52 * (43 * 2 ^ k) := by ring
  rw [mantissaNormal_toNat _ _ hlo hhi, exampleWord_fraction, scaled, Nat.mul_div_cancel_left _ (Nat.two_pow_pos 52)]

/-- Settles O49: the exponent is 3, and six mantissa bits hold the fraction `43 / 64`. -/
theorem thirteenPoint375ReadsBackExactly : Obligations.ThirteenPoint375ReadsBackExactly := by
  intro I hM hlo hhi
  obtain ⟨k, hk⟩ := Nat.exists_eq_add_of_le hM
  rw [← exampleWord_trueExponent] at hlo hhi
  have reading := readFields_of_normal I exampleWord hlo hhi
  have positive : signFactor (signOf exampleWord.1) = 1 := if_neg (by decide)
  rw [hk, exampleWord_mantissa, exampleWord_trueExponent, positive] at reading
  refine reading.trans (congrArg Reading.number ?_)
  push_cast
  rw [pow_add]
  field_simp
  norm_num

/-- Settles O55, from the shorter field and the fields of 13.375. -/
theorem shorterMantissaIsAPrefix : Obligations.ShorterMantissaIsAPrefix := by
  refine ⟨fun M M' S hlo hhi hle => mantissaNormal_eq_extractLsb' hlo hhi hle, fun I hI => ?_⟩
  have hE : I.layout.expBits = 6 := by rw [hI]; rfl
  have hM : I.layout.manBits = 12 := by rw [hI]; rfl
  have hbias : I.layout.effBias = 31 := by rw [hI]; rfl
  have hbe : trueExponent exampleWord + I.layout.effBias = 34 := by rw [exampleWord_trueExponent, hbias]; rfl
  have fields := encodeValue_of_normal I exampleWord (by omega) (by rw [hbe, hE]; decide)
  refine ⟨by rw [hI]; rfl, ?_⟩
  rw [assemble_toNat, show (0x402AC00000000000#64) = exampleWord.1 from rfl, fields, hbe]
  have sgn : (signOf exampleWord.1).toNat = 0 := by decide
  have man : (mantissaNormal I.layout.manBits (significand exampleWord)).toNat = 43 * 2 ^ 6 := by
    rw [hM]
    exact exampleWord_mantissa 6
  rw [sgn, man, BitVec.toNat_ofNat, hE, hM]
  rfl

/-! ### The double layout (R143) -/

/-- R50: a request word as a number. -/
theorem toNat_word (w : Word) : w.toNat = (signOf w).toNat * 2 ^ 63 + inE w * 2 ^ 52 + inF w := by
  have number : (requestWord (reqSign w) (reqExp w) (reqFrac w)).toNat =
      ((reqSign w).toNat * 2 ^ 11 + (reqExp w).toNat) * 2 ^ 52 + (reqFrac w).toNat := by
    rw [← toNat_append_eq_mul_add, ← toNat_append_eq_mul_add]
    rfl
  rw [requestWord_fields] at number
  rw [number, signOf, inE, inF]
  ring

/-- R143: on the widths and bias of double a FINITE word keeps its exponent and fraction field. -/
theorem encodeValue_double_of_finite (I : Instance) (w : FiniteWord) (hE : I.layout.expBits = 11)
    (hM : I.layout.manBits = 52) (hbias : I.layout.effBias = 1023) :
    (encodeValue I w.1).exp.toNat = inE w.1 ∧ (encodeValue I w.1).man.toNat = inF w.1 := by
  obtain ⟨notOnes, -⟩ := (classify_finite_iff w.1).mp w.2
  obtain ⟨hlo, hhi⟩ := significand_bounds w
  have hlt := inE_lt w.1
  have exponent := encodeValue_exp_toNat I w
  have ones : (2 : Int) ^ I.layout.expBits = 2048 := by rw [hE]; rfl
  rw [hbias, ones] at exponent
  by_cases normal : inE w.1 ≠ 0
  · have he := trueExponent_of_normal w normal
    refine ⟨by omega, ?_⟩
    rw [encodeValue_of_normal I w (by omega) (by rw [hE]; omega), mantissaNormal_toNat_of_le hM.ge hlo hhi,
      fraction_of_normal w normal, hM]
    simp
  · have subnormal : inE w.1 = 0 := not_not.mp normal
    have he := trueExponent_of_subnormal w subnormal
    have raw : rawSignificand w = inF w.1 := if_neg normal
    have hF := inF_lt w.1
    have hlz : 1 ≤ leadingZeros w := by
      by_contra zero
      rw [significand_eq, raw, show leadingZeros w = 0 by omega] at hlo
      omega
    have shift_eq : subnormalShift (trueExponent w + I.layout.effBias) = leadingZeros w := by
      unfold subnormalShift
      omega
    refine ⟨by omega, ?_⟩
    rw [encodeValue_of_subnormal I w (by omega), shift_eq, mantissaSubnormal_toNat _ _ _ hhi hlz, hM, significand_eq, raw,
      Nat.mul_assoc, ← Nat.pow_add, Nat.add_comm, Nat.mul_div_cancel _ (Nat.two_pow_pos _)]

/-- R143: so does every word that is no NaN. -/
theorem encodeValue_double (I : Instance) (w : Word) (hE : I.layout.expBits = 11) (hM : I.layout.manBits = 52)
    (hbias : I.layout.effBias = 1023) (h : classify w ≠ .nan) :
    (encodeValue I w).exp.toNat = inE w ∧ (encodeValue I w).man.toNat = inF w := by
  cases class_eq : classify w with
  | nan => exact absurd class_eq h
  | inf =>
    obtain ⟨ones, zero⟩ := (classify_inf_iff w).mp class_eq
    rw [encodeValue_of_inf I w class_eq, ones, zero]
    simp [infFields, Machine.ones, zeros, hE]
  | zero =>
    obtain ⟨zeroE, zeroF⟩ := (classify_zero_iff w).mp class_eq
    rw [encodeValue_of_zero I w class_eq, zeroE, zeroF]
    simp [zeroFields, zeros]
  | finite => exact encodeValue_double_of_finite I ⟨w, class_eq⟩ hE hM hbias

/-- Settles O50: the string and the word are the same sum of the three fields. -/
theorem doubleEncodesEveryWordToItself : Obligations.DoubleEncodesEveryWordToItself := by
  intro I w hE hM hbias
  have string := assemble_toNat (encodeValue I w)
  have signWeight : 2 ^ (I.layout.expBits + I.layout.manBits) = 2 ^ 63 := by rw [hE, hM]
  have expWeight : 2 ^ I.layout.manBits = 2 ^ 52 := by rw [hM]
  rw [signWeight, expWeight, encodeValue_sign] at string
  constructor
  case left =>
    intro h
    obtain ⟨exp, man⟩ := encodeValue_double I w hE hM hbias h
    rw [string, exp, man, toNat_word]
  case right =>
    intro h
    have exp : (encodeValue I w).exp.toNat = 2047 := by
      rw [encodeValue_of_nan I w h]
      simp [nanFields, Machine.ones, hE]
    have man : (encodeValue I w).man = I.nanMantissa := by
      rw [encodeValue_of_nan I w h]
      rfl
    rw [string, exp, man]
    rfl

/-! ### The whole function (R130) -/

/-- R93 with its shift as an exact quotient. -/
theorem mantissaNormal_eq_ofNat (M S : Nat) :
    mantissaNormal M S = BitVec.ofNat M (fraction S * 2 ^ M / 2 ^ 52) := by
  have quotient := shift_sub (fraction S) M 52
  rw [Nat.cast_ofNat] at quotient
  rw [mantissaNormal, bitsN, quotient]

/-- R94 with its shift as an exact quotient. -/
theorem mantissaSubnormal_eq_ofNat (M S sh : Nat) :
    mantissaSubnormal M S sh = BitVec.ofNat M (S * 2 ^ M / 2 ^ (52 + sh)) := by
  have exponent : (M : Int) - 52 - (sh : Int) = (M : Int) - ((52 + sh : Nat) : Int) := by omega
  rw [mantissaSubnormal, bitsN, exponent, shift_sub]

/-- Settles O22: class by class, and for a finite word range by range; a shift that normalises `S0` is the shift `lz`. -/
theorem encodeFollowsTheWholeFunction : Obligations.EncodeFollowsTheWholeFunction := by
  rintro w s E F rfl rfl
  refine ⟨fun hE hF => ?nan, fun hE hF => ?inf, fun hE hF => ?zero,
    fun notOnes notZero S lz be hS hlo hhi hbe => ?finite⟩
  case nan => rw [exec_encode, encodeValue_of_nan _ w ((classify_nan_iff w).mpr ⟨hE, hF⟩)]; rfl
  case inf => rw [exec_encode, encodeValue_of_inf _ w ((classify_inf_iff w).mpr ⟨hE, hF⟩)]; rfl
  case zero => rw [exec_encode, encodeValue_of_zero _ w ((classify_zero_iff w).mpr ⟨hE, hF⟩)]; rfl
  case finite =>
    obtain ⟨fw, rfl⟩ : ∃ fw : FiniteWord, fw.1 = w := ⟨⟨w, (classify_finite_iff w).mpr ⟨notOnes, notZero⟩⟩, rfl⟩
    have raw : rawSignificand fw = if inE fw.1 = 0 then inF fw.1 else 2 ^ 52 + inF fw.1 := ite_not ..
    have exponent : rawExponent fw = if inE fw.1 = 0 then -1022 else (inE fw.1 : Int) - 1023 := ite_not ..
    replace hS : S = rawSignificand fw * 2 ^ lz := hS.trans (by rw [raw]; rfl)
    replace hbe : be = rawExponent fw - lz + s.inst.layout.effBias := hbe.trans (by rw [exponent]; rfl)
    rw [hS] at hlo hhi
    obtain rfl := leadingZeros_unique fw hlo hhi
    obtain rfl : S = significand fw := hS
    obtain rfl : be = trueExponent fw + s.inst.layout.effBias := hbe
    rw [exec_encode]
    refine ⟨fun hbe => ?_, fun hover => ?_, fun hlo hunder => ?_⟩
    · rw [encodeValue_of_subnormal _ fw hbe, mantissaSubnormal_eq_ofNat]; rfl
    · rw [encodeValue_of_overflow _ fw hover]; rfl
    · rw [encodeValue_of_normal _ fw hlo hunder, mantissaNormal_eq_ofNat]; rfl

end Sys2Proof.Machine
end

section
/-! SUPPORT. The hexadecimal view (R120, R140), the presets (R6), elaboration of a valid record (R5, R7, R173), and the statements about them. -/

namespace Sys2Proof.Machine

/-! ### The hexadecimal view (R120, R140) -/

/-- R4: `H` is the next multiple of 4 from `W` on. -/
theorem hexWidth_bounds (L : Layout) : L.W ≤ L.H ∧ L.H - L.W < 4 := by
  simp only [Layout.H]
  omega

/-- R120: the padding counts as a factor `2^(H-W)`. -/
theorem hexView_toNat (L : Layout) (bits : BitVec L.W) :
    (hexView L bits).toNat = bits.toNat * 2 ^ (L.H - L.W) := by
  rw [hexView, BitVec.toNat_cast, toNat_append_eq_mul_add, zeros, BitVec.toNat_ofNat, Nat.zero_mod, Nat.add_zero]

/-- R140: without its padding the view is the string. -/
theorem hexView_drop_padding (L : Layout) (bits : BitVec L.W) :
    (hexView L bits).extractLsb' (L.H - L.W) L.W = bits := by
  apply BitVec.eq_of_toNat_eq
  rw [BitVec.extractLsb'_toNat, hexView_toNat, Nat.shiftRight_eq_div_pow, Nat.mul_div_cancel _ (Nat.two_pow_pos _),
    Nat.mod_eq_of_lt bits.isLt]

/-- R120: digit `k` from the left is digit `H / 4 - 1 - k` from the right. -/
theorem hexDigit_toNat (L : Layout) (hex : BitVec L.H) {k : Nat} (hk : k < L.H / 4) :
    (hexDigit L hex k).toNat = hex.toNat / 16 ^ (L.H / 4 - 1 - k) % 16 := by
  have start : L.H - 4 - 4 * k = 4 * (L.H / 4 - 1 - k) := by
    simp only [Layout.H] at hk ⊢
    omega
  rw [hexDigit, BitVec.extractLsb'_toNat, Nat.shiftRight_eq_div_pow, start, Nat.pow_mul]

/-- Settles O54, from the number of the view. -/
theorem hexViewPadsTheLeastSignificantEnd : Obligations.HexViewPadsTheLeastSignificantEnd := by
  intro L bits
  obtain ⟨fits, short⟩ := hexWidth_bounds L
  refine ⟨fits, short, Nat.dvd_mul_right 4 _, hexView_toNat L bits, hexView_drop_padding L bits, fun k hk => ?_⟩
  rw [hexDigit_toNat L _ hk, hexView_toNat]

/-! ### The presets (R6) -/

/-- Settles O58: the four constants of each preset evaluated. -/
theorem presetConstants : Obligations.PresetConstants := by
  refine ⟨?_, ?_, ?_, ?_, ?_⟩ <;> decide

/-! ### Elaboration of a valid record (R5, R7, R173) -/

/-- R173: a record that fails no check elaborates to the state after reset with the chosen `NAN_MANTISSA`. -/
theorem elaborate_of_choice {r : RawLayout} {nan : Option Nat} {v : { v : BitVec r.toLayout.manBits // r.toLayout.NanAllowed v }}
    (passed : r.failure = none) (choice : nanChoice r.toLayout nan = some v) :
    elaborate r nan = .next (State.afterReset
      { layout := r.toLayout, nanMantissa := v.1, layoutValid := r.toLayout_valid passed, nanAllowed := v.2 }) := by
  unfold elaborate
  split
  next failed => simp [passed] at failed
  next => rw [choice]

/-- Log entry 15: without a choice the given number is refused by name. -/
theorem elaborate_of_no_choice {r : RawLayout} {x : Nat} (passed : r.failure = none)
    (choice : nanChoice r.toLayout (some x) = none) : elaborate r (some x) = .refused (.nanMantissaNotAllowed x) := by
  unfold elaborate
  split
  next failed => simp [passed] at failed
  next =>
    rw [choice]
    rfl

/-- R7: which numbers are allowed as `NAN_MANTISSA`. -/
theorem nanAllowed_ofNat_iff (L : Layout) {x : Nat} (fits : x < 2 ^ L.manBits) :
    L.NanAllowed (BitVec.ofNat L.manBits x) ↔ L.manBits = 0 ∨ x ≠ 0 := by
  rw [Layout.NanAllowed, ne_eq, ne_eq, ← BitVec.toNat_inj, BitVec.toNat_ofNat, Nat.mod_eq_of_lt fits, BitVec.toNat_ofNat,
    Nat.zero_mod]

/-- Settles O57: a valid record fails no check, and what becomes of it depends on the choice of `NAN_MANTISSA` alone. -/
theorem validLayoutElaborates : Obligations.ValidLayoutElaborates := by
  intro r hE hM hT
  have passed := r.failure_of_valid hE hM hT
  have noMantissa : r.toLayout.manBits = 0 ↔ r.manBits = 0 := by
    have width : r.toLayout.manBits = r.manBits.toNat := rfl
    omega
  refine ⟨⟨_, elaborate_of_choice passed rfl, rfl, rfl, rfl⟩, fun x fits allowed => ?_, fun x bad => ?_⟩
  · have ok := (nanAllowed_ofNat_iff r.toLayout fits).mpr (allowed.imp_left noMantissa.mpr)
    have choice : nanChoice r.toLayout (some x) = some ⟨BitVec.ofNat _ x, ok⟩ := dif_pos ⟨fits, ok⟩
    exact ⟨_, elaborate_of_choice passed choice, rfl, Nat.mod_eq_of_lt fits, rfl⟩
  · have refused : nanChoice r.toLayout (some x) = none := dif_neg fun ⟨fits, ok⟩ =>
      bad ⟨fits, ((nanAllowed_ofNat_iff r.toLayout fits).mp ok).imp_left noMantissa.mp⟩
    exact elaborate_of_no_choice passed refused

end Sys2Proof.Machine
end
